-- ==== Sys2Proof/Config.lean ====
section
/-! DEFINITION. The implementation parameters of the core (spec/00_scope.md R6), each a field, and the free values of the spec.
`Sizes` are the parameters that State's types are built from; `Config` are those that its operations take as an argument.
TIMER_PERIOD is the input `due` of a cycle, as R6 says. The values of Config that this hardware takes stand in Machine/Params.lean. -/

namespace Sys2Proof

/-- The sizes among the parameters of R6, with the values this hardware takes. -/
structure Sizes where
  /-- NUM_V: how many V registers, 8 bits each. -/
  numV : Nat := 16
  /-- I_WIDTH, in bits. -/
  iWidth : Nat := 16
  /-- PC_WIDTH, in bits. -/
  pcWidth : Nat := 16
  /-- FB_WIDTH, in pixels. -/
  fbWidth : Nat := 64
  /-- FB_HEIGHT, in pixels. -/
  fbHeight : Nat := 32
  /-- NUM_KEYS. -/
  numKeys : Nat := 16
  /-- FONT_SIZE, in bytes: 16 glyphs of 5. -/
  fontSize : Nat := 80
deriving DecidableEq, Repr

/-- The sizes of this hardware: the types of Word.lean and Machine/State.lean are built from them. -/
abbrev sizes : Sizes := {}

/-- The other parameters of R6. -/
structure Config where
  /-- MEM_SIZE: how many bytes MEM holds. -/
  memSize : Nat
  /-- PC_RESET and PROGRAM_START: where programs load and begin. -/
  pcReset : BitVec sizes.pcWidth
  /-- PC_LIMIT: a cycle that begins with PC above it is a no-op. -/
  pcLimit : BitVec sizes.pcWidth
  /-- STACK_DEPTH: how many return addresses the call stack holds (decision D1). -/
  stackDepth : Nat
  /-- FONT_BASE: where the font stands in MEM after Reset. -/
  fontBase : Nat
  /-- FONT: the font's bytes (decision D15). -/
  font : Vector (BitVec 8) sizes.fontSize
  /-- ROM_MAX: the longest ROM that loadRom takes. -/
  romMax : Nat
  /-- TIMERS_TICK_WHEN_EXHAUSTED: does an exhausted cycle take a timer step (decision D8)? -/
  timersTickWhenExhausted : Bool
deriving DecidableEq, Repr

/-- FREE VALUE (spec/60_exceptions.md R231, decision D9; notes/assumptions/1.md): the k-th draw of the input `due`.
It has no body, so nothing can be proved of its values. -/
opaque Config.drawDue : Nat → Bool

/-- FREE VALUE (spec/60_exceptions.md R235, decision D10; notes/assumptions/2.md): the k-th draw of the input `rnd`.
It has no body, so nothing can be proved of its values. -/
opaque Config.drawRnd : Nat → BitVec 8

end Sys2Proof
end

