-- ==== Sys2Proof/Word.lean ====
section
/-! DEFINITION. The word types of the core (spec/00_scope.md R6, R7, spec/10_state.md R21, R24, R25, R33, R34, spec/30_encoding.md R80).
Every value is unsigned; there are no signed operations (R7). -/

namespace Sys2Proof

/-- A byte: a V register, DT, ST or one address of MEM (R21, R31, R32, R50). -/
abbrev Byte := BitVec 8

/-- A 16-bit value: an instruction word, a return address, a field of FAULT (R28, R37, R80). -/
abbrev Word := BitVec 16

/-- A value of I, I_WIDTH bits (R24). -/
abbrev Index := BitVec sizes.iWidth

/-- A value of PC, PC_WIDTH bits (R25). -/
abbrev ProgramCounter := BitVec sizes.pcWidth

/-- The 12-bit address immediate nnn (R80). -/
abbrev Imm12 := BitVec 12

/-- The 4-bit row count n of Dxyn (R80). -/
abbrev Nibble := BitVec 4

/-- The number of a general register, one of NUM_V: V0–VF (R21). -/
abbrev Reg := Fin sizes.numV

/-- The index of a key, one of NUM_KEYS: 0x0–0xF (R33). -/
abbrev Key := Fin sizes.numKeys

/-- A column of the framebuffer, one of FB_WIDTH (R34). -/
abbrev Column := Fin sizes.fbWidth

/-- A row of the framebuffer, one of FB_HEIGHT (R34). -/
abbrev Row := Fin sizes.fbHeight

end Sys2Proof
end

