-- ==== Sys2Proof/Syntax.lean ====
section
/-! DEFINITION. The instructions: one constructor per row of spec/opcode_table.json (spec/30_encoding.md R86).
A constructor holds every field its row's pattern names, also a field the instruction ignores (y of 8xy6 and 8xyE, nnn of SYS). -/

namespace Sys2Proof

/-- The 35 instructions of R86. -/
inductive Instr where
  /-- 00E0, CLS (R181). -/
  | cls
  /-- 00EE, RET (R110). -/
  | ret
  /-- 0nnn but 00E0 and 00EE, SYS nnn: a no-op word (R87). -/
  | sys (nnn : Imm12)
  /-- 1nnn, JP nnn (R111). -/
  | jp (nnn : Imm12)
  /-- 2nnn, CALL nnn (R112). -/
  | call (nnn : Imm12)
  /-- 3xnn, SE Vx, nn (R113). -/
  | seImm (x : Reg) (nn : Byte)
  /-- 4xnn, SNE Vx, nn (R114). -/
  | sneImm (x : Reg) (nn : Byte)
  /-- 5xy0, SE Vx, Vy (R115). -/
  | seReg (x y : Reg)
  /-- 6xnn, LD Vx, nn (R130). -/
  | ldImm (x : Reg) (nn : Byte)
  /-- 7xnn, ADD Vx, nn (R131). -/
  | addImm (x : Reg) (nn : Byte)
  /-- 8xy0, LD Vx, Vy (R132). -/
  | ldReg (x y : Reg)
  /-- 8xy1, OR Vx, Vy (R133). -/
  | orReg (x y : Reg)
  /-- 8xy2, AND Vx, Vy (R134). -/
  | andReg (x y : Reg)
  /-- 8xy3, XOR Vx, Vy (R135). -/
  | xorReg (x y : Reg)
  /-- 8xy4, ADD Vx, Vy (R136). -/
  | addReg (x y : Reg)
  /-- 8xy5, SUB Vx, Vy (R137). -/
  | sub (x y : Reg)
  /-- 8xy6, SHR Vx, Vy (R138). -/
  | shr (x y : Reg)
  /-- 8xy7, SUBN Vx, Vy (R139). -/
  | subn (x y : Reg)
  /-- 8xyE, SHL Vx, Vy (R140). -/
  | shl (x y : Reg)
  /-- 9xy0, SNE Vx, Vy (R116). -/
  | sneReg (x y : Reg)
  /-- Annn, LD I, nnn (R160). -/
  | ldI (nnn : Imm12)
  /-- Bnnn, JP V0, nnn (R117). -/
  | jpV0 (nnn : Imm12)
  /-- Cxnn, RND Vx, nn (R141). -/
  | rnd (x : Reg) (nn : Byte)
  /-- Dxyn, DRW Vx, Vy, n (R182). -/
  | drw (x y : Reg) (n : Nibble)
  /-- Ex9E, SKP Vx (R200). -/
  | skp (x : Reg)
  /-- ExA1, SKNP Vx (R201). -/
  | sknp (x : Reg)
  /-- Fx07, LD Vx, DT (R202). -/
  | ldVxDt (x : Reg)
  /-- Fx0A, LD Vx, K (R203). -/
  | ldVxK (x : Reg)
  /-- Fx15, LD DT, Vx (R204). -/
  | ldDtVx (x : Reg)
  /-- Fx18, LD ST, Vx (R205). -/
  | ldStVx (x : Reg)
  /-- Fx1E, ADD I, Vx (R161). -/
  | addI (x : Reg)
  /-- Fx29, LD F, Vx (R162). -/
  | ldF (x : Reg)
  /-- Fx33, LD B, Vx (R163). -/
  | ldB (x : Reg)
  /-- Fx55, LD [I], Vx (R164). -/
  | storeRegs (x : Reg)
  /-- Fx65, LD Vx, [I] (R165). -/
  | loadRegs (x : Reg)
deriving DecidableEq, Repr

end Sys2Proof
end

