-- ==== Sys2Proof/WellFormed.lean ====
section
/-! DEFINITION. Which terms of Instr are instructions of the core: the fields' widths are in their types, so the one check left
is that the SYS row of spec/30_encoding.md R86 "matches only words no earlier row of group 0 matches". -/

namespace Sys2Proof

/-- `i.wf`: some word decodes to `i`. SYS takes every nnn but 0x0E0 (CLS) and 0x0EE (RET) (R86, R87). -/
def Instr.wf : Instr → Bool
  | .sys nnn => nnn != 0x0E0 && nnn != 0x0EE
  | .cls => true
  | .ret => true
  | .jp _ => true
  | .call _ => true
  | .seImm _ _ => true
  | .sneImm _ _ => true
  | .seReg _ _ => true
  | .ldImm _ _ => true
  | .addImm _ _ => true
  | .ldReg _ _ => true
  | .orReg _ _ => true
  | .andReg _ _ => true
  | .xorReg _ _ => true
  | .addReg _ _ => true
  | .sub _ _ => true
  | .shr _ _ => true
  | .subn _ _ => true
  | .shl _ _ => true
  | .sneReg _ _ => true
  | .ldI _ => true
  | .jpV0 _ => true
  | .rnd _ _ => true
  | .drw _ _ _ => true
  | .skp _ => true
  | .sknp _ => true
  | .ldVxDt _ => true
  | .ldVxK _ => true
  | .ldDtVx _ => true
  | .ldStVx _ => true
  | .addI _ => true
  | .ldF _ => true
  | .ldB _ => true
  | .storeRegs _ => true
  | .loadRegs _ => true

end Sys2Proof
end

