-- ==== Sys2Proof/Decode.lean ====
section
/-! DEFINITION. Decoding an instruction word (spec/30_encoding.md R80, R81, R86–R88), the encoder, and each row's mask and match.
Decoding is total: a word is one of the 35 instructions, or a no-op word of a group the verdict names (R87). -/

namespace Sys2Proof

/-- The groups whose unlisted words are no-op words (R87). Group 0's are the SYS row; groups 1, 2, 3, 4, 6, 7, A, B, C and D have none.
Safe or unsafe: see notes/assumptions/6.md. -/
inductive NoOpGroup where
  /-- 5xyN with N ≠ 0. -/
  | group5
  /-- 8xyN with N one of 8, 9, A, B, C, D, F. -/
  | group8
  /-- 9xyN with N ≠ 0. -/
  | group9
  /-- ExNN with NN neither 9E nor A1. -/
  | groupE
  /-- FxNN with NN none of 07, 0A, 15, 18, 1E, 29, 33, 55, 65. -/
  | groupF
deriving DecidableEq, Repr

/-- op = w[15:12] (R80). -/
def fieldOp (w : Word) : BitVec 4 := w.extractLsb' 12 4

/-- x = w[11:8] (R80). -/
def fieldX (w : Word) : Reg := (w.extractLsb' 8 4).toFin

/-- y = w[7:4] (R80). -/
def fieldY (w : Word) : Reg := (w.extractLsb' 4 4).toFin

/-- n = w[3:0] (R80). -/
def fieldN (w : Word) : Nibble := w.extractLsb' 0 4

/-- nn = w[7:0] (R80). -/
def fieldNN (w : Word) : Byte := w.extractLsb' 0 8

/-- nnn = w[11:0] (R80). -/
def fieldNNN (w : Word) : Imm12 := w.extractLsb' 0 12

/-- Group 0: CLS and RET match all 16 bits, every other word is SYS (R86, R87; decision D6). -/
def decodeGroup0 (nnn : Imm12) : Instr :=
  if nnn = 0x0E0 then .cls else if nnn = 0x0EE then .ret else .sys nnn

/-- Group 8: the ALU group, selected by n (R86, R91). -/
def decodeGroup8 (x y : Reg) (n : Nibble) : Except NoOpGroup Instr :=
  match n.toNat with
  | 0x0 => .ok (.ldReg x y)
  | 0x1 => .ok (.orReg x y)
  | 0x2 => .ok (.andReg x y)
  | 0x3 => .ok (.xorReg x y)
  | 0x4 => .ok (.addReg x y)
  | 0x5 => .ok (.sub x y)
  | 0x6 => .ok (.shr x y)
  | 0x7 => .ok (.subn x y)
  | 0xE => .ok (.shl x y)
  | _ => .error .group8

/-- Group E: a key test, selected by nn (R86, R91). -/
def decodeGroupE (x : Reg) (nn : Byte) : Except NoOpGroup Instr :=
  match nn.toNat with
  | 0x9E => .ok (.skp x)
  | 0xA1 => .ok (.sknp x)
  | _ => .error .groupE

/-- Group F: decoded on all of nn (R86; spec/90_conflicts.md C5). -/
def decodeGroupF (x : Reg) (nn : Byte) : Except NoOpGroup Instr :=
  match nn.toNat with
  | 0x07 => .ok (.ldVxDt x)
  | 0x0A => .ok (.ldVxK x)
  | 0x15 => .ok (.ldDtVx x)
  | 0x18 => .ok (.ldStVx x)
  | 0x1E => .ok (.addI x)
  | 0x29 => .ok (.ldF x)
  | 0x33 => .ok (.ldB x)
  | 0x55 => .ok (.storeRegs x)
  | 0x65 => .ok (.loadRegs x)
  | _ => .error .groupF

/-- The decoder (R86): every one of the 65536 words is an instruction or a no-op word of a named group (R88). -/
def decode (w : Word) : Except NoOpGroup Instr :=
  match (fieldOp w).toNat with
  | 0x0 => .ok (decodeGroup0 (fieldNNN w))
  | 0x1 => .ok (.jp (fieldNNN w))
  | 0x2 => .ok (.call (fieldNNN w))
  | 0x3 => .ok (.seImm (fieldX w) (fieldNN w))
  | 0x4 => .ok (.sneImm (fieldX w) (fieldNN w))
  | 0x5 => if fieldN w = 0 then .ok (.seReg (fieldX w) (fieldY w)) else .error .group5
  | 0x6 => .ok (.ldImm (fieldX w) (fieldNN w))
  | 0x7 => .ok (.addImm (fieldX w) (fieldNN w))
  | 0x8 => decodeGroup8 (fieldX w) (fieldY w) (fieldN w)
  | 0x9 => if fieldN w = 0 then .ok (.sneReg (fieldX w) (fieldY w)) else .error .group9
  | 0xA => .ok (.ldI (fieldNNN w))
  | 0xB => .ok (.jpV0 (fieldNNN w))
  | 0xC => .ok (.rnd (fieldX w) (fieldNN w))
  | 0xD => .ok (.drw (fieldX w) (fieldY w) (fieldN w))
  | 0xE => decodeGroupE (fieldX w) (fieldNN w)
  | _ => decodeGroupF (fieldX w) (fieldNN w)

/-- The word of two bytes in the order they stand in MEM: big-endian, the byte at the lower address is w[15:8],
`(MEM[PC] << 8) | MEM[PC+1]` (spec/20_memory.md R55, spec/30_encoding.md R84). -/
def wordOfBytes (hi lo : Byte) : Word := hi.setWidth 16 <<< 8 ||| lo.setWidth 16

/-- The bytes of a word in the order they stand in MEM (R55). -/
def highByte (w : Word) : Byte := w.extractLsb' 8 8

/-- See `highByte`. -/
def lowByte (w : Word) : Byte := w.extractLsb' 0 8

/-- The word of an instruction whose fields are op and nnn: op ‖ nnn. -/
def packNNN (op : BitVec 4) (nnn : Imm12) : Word := op.setWidth 16 <<< 12 ||| nnn.setWidth 16

/-- The word of an instruction whose fields are op, x and nn: op ‖ x ‖ nn. -/
def packXNN (op : BitVec 4) (x : Reg) (nn : Byte) : Word :=
  op.setWidth 16 <<< 12 ||| BitVec.ofNat 16 x.val <<< 8 ||| nn.setWidth 16

/-- The word of an instruction whose fields are op, x, y and n: op ‖ x ‖ y ‖ n. -/
def packXYN (op : BitVec 4) (x y : Reg) (n : Nibble) : Word :=
  op.setWidth 16 <<< 12 ||| BitVec.ofNat 16 x.val <<< 8 ||| BitVec.ofNat 16 y.val <<< 4 ||| n.setWidth 16

/-- The encoder, from the patterns of R86. -/
def encode : Instr → Word
  | .cls => 0x00E0
  | .ret => 0x00EE
  | .sys nnn => packNNN 0x0 nnn
  | .jp nnn => packNNN 0x1 nnn
  | .call nnn => packNNN 0x2 nnn
  | .seImm x nn => packXNN 0x3 x nn
  | .sneImm x nn => packXNN 0x4 x nn
  | .seReg x y => packXYN 0x5 x y 0x0
  | .ldImm x nn => packXNN 0x6 x nn
  | .addImm x nn => packXNN 0x7 x nn
  | .ldReg x y => packXYN 0x8 x y 0x0
  | .orReg x y => packXYN 0x8 x y 0x1
  | .andReg x y => packXYN 0x8 x y 0x2
  | .xorReg x y => packXYN 0x8 x y 0x3
  | .addReg x y => packXYN 0x8 x y 0x4
  | .sub x y => packXYN 0x8 x y 0x5
  | .shr x y => packXYN 0x8 x y 0x6
  | .subn x y => packXYN 0x8 x y 0x7
  | .shl x y => packXYN 0x8 x y 0xE
  | .sneReg x y => packXYN 0x9 x y 0x0
  | .ldI nnn => packNNN 0xA nnn
  | .jpV0 nnn => packNNN 0xB nnn
  | .rnd x nn => packXNN 0xC x nn
  | .drw x y n => packXYN 0xD x y n
  | .skp x => packXNN 0xE x 0x9E
  | .sknp x => packXNN 0xE x 0xA1
  | .ldVxDt x => packXNN 0xF x 0x07
  | .ldVxK x => packXNN 0xF x 0x0A
  | .ldDtVx x => packXNN 0xF x 0x15
  | .ldStVx x => packXNN 0xF x 0x18
  | .addI x => packXNN 0xF x 0x1E
  | .ldF x => packXNN 0xF x 0x29
  | .ldB x => packXNN 0xF x 0x33
  | .storeRegs x => packXNN 0xF x 0x55
  | .loadRegs x => packXNN 0xF x 0x65

/-- The mask and the match of an instruction's row in the table of R86. -/
def opcodeRow : Instr → Word × Word
  | .cls => (0xFFFF, 0x00E0)
  | .ret => (0xFFFF, 0x00EE)
  | .sys _ => (0xF000, 0x0000)
  | .jp _ => (0xF000, 0x1000)
  | .call _ => (0xF000, 0x2000)
  | .seImm _ _ => (0xF000, 0x3000)
  | .sneImm _ _ => (0xF000, 0x4000)
  | .seReg _ _ => (0xF00F, 0x5000)
  | .ldImm _ _ => (0xF000, 0x6000)
  | .addImm _ _ => (0xF000, 0x7000)
  | .ldReg _ _ => (0xF00F, 0x8000)
  | .orReg _ _ => (0xF00F, 0x8001)
  | .andReg _ _ => (0xF00F, 0x8002)
  | .xorReg _ _ => (0xF00F, 0x8003)
  | .addReg _ _ => (0xF00F, 0x8004)
  | .sub _ _ => (0xF00F, 0x8005)
  | .shr _ _ => (0xF00F, 0x8006)
  | .subn _ _ => (0xF00F, 0x8007)
  | .shl _ _ => (0xF00F, 0x800E)
  | .sneReg _ _ => (0xF00F, 0x9000)
  | .ldI _ => (0xF000, 0xA000)
  | .jpV0 _ => (0xF000, 0xB000)
  | .rnd _ _ => (0xF000, 0xC000)
  | .drw _ _ _ => (0xF000, 0xD000)
  | .skp _ => (0xF0FF, 0xE09E)
  | .sknp _ => (0xF0FF, 0xE0A1)
  | .ldVxDt _ => (0xF0FF, 0xF007)
  | .ldVxK _ => (0xF0FF, 0xF00A)
  | .ldDtVx _ => (0xF0FF, 0xF015)
  | .ldStVx _ => (0xF0FF, 0xF018)
  | .addI _ => (0xF0FF, 0xF01E)
  | .ldF _ => (0xF0FF, 0xF029)
  | .ldB _ => (0xF0FF, 0xF033)
  | .storeRegs _ => (0xF0FF, 0xF055)
  | .loadRegs _ => (0xF0FF, 0xF065)

/-- The word whose bits are `w` as spec/opcode_table.json numbers them: one 16-bit word, bits at and above `nbits` zero. -/
def tableWord (nbits w : Nat) : Word := BitVec.ofNat 16 (w % 2 ^ nbits)

/-- What the decoder reads from the bytes of that word, laid out as MEM holds them. -/
def decodeTableWord (nbits w : Nat) : Option Instr :=
  match decode (wordOfBytes (highByte (tableWord nbits w)) (lowByte (tableWord nbits w))) with
  | .ok i => some i
  | .error _ => none

end Sys2Proof
end

