-- ==== Sys2Proof/Machine/Params.lean ====
section
/-! DEFINITION. The values this hardware takes for the parameters of spec/00_scope.md R6. -/

namespace Sys2Proof.Machine

/-- FONT: the 80 font bytes of the table in spec/20_memory.md R52, glyph 0 first.
PRESUMED by the spec (decision D15: the conventional font, from general knowledge); notes/assumptions/17.md. -/
def fontBytes : List Byte :=
  [0xF0, 0x90, 0x90, 0x90, 0xF0] ++ [0x20, 0x60, 0x20, 0x20, 0x70] ++
  [0xF0, 0x10, 0xF0, 0x80, 0xF0] ++ [0xF0, 0x10, 0xF0, 0x10, 0xF0] ++
  [0x90, 0x90, 0xF0, 0x10, 0x10] ++ [0xF0, 0x80, 0xF0, 0x10, 0xF0] ++
  [0xF0, 0x80, 0xF0, 0x90, 0xF0] ++ [0xF0, 0x10, 0x20, 0x40, 0x40] ++
  [0xF0, 0x90, 0xF0, 0x90, 0xF0] ++ [0xF0, 0x90, 0xF0, 0x10, 0xF0] ++
  [0xF0, 0x90, 0xF0, 0x90, 0x90] ++ [0xE0, 0x90, 0xE0, 0x90, 0xE0] ++
  [0xF0, 0x80, 0x80, 0x80, 0xF0] ++ [0xE0, 0x90, 0x90, 0x90, 0xE0] ++
  [0xF0, 0x80, 0xF0, 0x80, 0xF0] ++ [0xF0, 0x80, 0xF0, 0x80, 0x80]

/-- The parameters of this hardware (R6). The operations that read a parameter take a Config as their last argument, and `hw` where none
is given. -/
def hw : Config where
  memSize := 4096
  pcReset := 0x0200
  pcLimit := 0x0FFE
  stackDepth := 16
  fontBase := 0
  font := ⟨fontBytes.toArray, rfl⟩
  romMax := 0xE00
  timersTickWhenExhausted := false

end Sys2Proof.Machine
end

