-- ==== Sys2Proof/Machine/State.lean ====
section
/-! DEFINITION. The state of the core as plain data (spec/10_state.md R20), the reasons a step can stop, and the state after reset. -/

namespace Sys2Proof.Machine

/-- The causes of a fault (spec/60_exceptions.md R222). -/
inductive Cause where
  /-- Code 1: 00EE on an empty stack. -/
  | stackUnderflow
  /-- Code 2: 2nnn on a full stack. -/
  | stackOverflow
  /-- Code 3: a data access past the end of MEM. -/
  | memoryBounds
  /-- Code 4: a key test of an index above 15. -/
  | invalidKeyIndex
deriving DecidableEq, Repr

/-- One record of FAULT (R37). -/
structure FaultRecord where
  /-- Which fault. -/
  cause : Cause
  /-- The address of the faulting instruction. -/
  pc : Word
  /-- The faulting instruction word. -/
  word : Word
  /-- What R222 records for the cause. -/
  info : Word
deriving DecidableEq, Repr

/-- MEM (R50): the bytes that differ from what Reset leaves, addresses rising (see `Memory.wf` in Machine/Ops.lean). -/
abbrev Memory := List Host.Cell

/-- FB (R34): FB_HEIGHT rows of FB_WIDTH pixels. -/
abbrev Framebuffer := Vector (Vector Bool sizes.fbWidth) sizes.fbHeight

/-- The state of the core (R20), and the two inputs of the coming cycle (R83). -/
structure State where
  /-- V0–VF (R21). -/
  v : Vector Byte sizes.numV
  /-- I (R24). -/
  i : Index
  /-- PC (R25). -/
  pc : ProgramCounter
  /-- STACK, the top entry first (R28). -/
  stack : List Word
  /-- DT (R31). -/
  dt : Byte
  /-- ST (R32). -/
  st : Byte
  /-- KEY (R33). -/
  key : Vector Bool sizes.numKeys
  /-- FB (R34). -/
  fb : Framebuffer
  /-- MEM (R35). -/
  mem : Memory
  /-- FAULT (R37). -/
  fault : Option FaultRecord
  /-- The model's own: the input `due` of the coming cycle (R83, R231). -/
  due : Bool
  /-- The model's own: the input `rnd` of the coming cycle (R83, R235). -/
  rnd : Byte
  /-- The model's own: how many draws of the inputs have been taken. -/
  draws : Nat
deriving DecidableEq, Repr

/-- Why a step stops with a fault of the interface: NEVER. A fault of this core is recorded in FAULT and the machine goes on to a
next state (spec/60_exceptions.md R223, R224), so this type has no constructor (notes/assumptions/4.md; safe). -/
inductive Fault where
deriving DecidableEq, Repr

/-- Why a step refuses an instruction. -/
inductive Refusal where
  /-- An instruction of the table without a meaning: raised by no arm of exec, every instruction has its meaning (safe). -/
  | notModelled (mnemonic : String)
deriving DecidableEq, Repr

/-- The outcome of a step of this machine. -/
abbrev Outcome := Host.Outcome State Fault Refusal

/-- The state right after Reset, which is the state at power-on too (spec/70_reset_and_hazards.md R260, R261), of a core with the
parameters `c`. MEM lists nothing: it holds what Reset writes. The inputs of the first cycle are free draws. -/
def State.resetOf (c : Config) : State where
  v := Vector.replicate sizes.numV 0
  i := 0
  pc := c.pcReset
  stack := []
  dt := 0
  st := 0
  key := Vector.replicate sizes.numKeys false
  fb := Vector.replicate sizes.fbHeight (Vector.replicate sizes.fbWidth false)
  mem := []
  fault := none
  due := Config.drawDue 0
  rnd := Config.drawRnd 0
  draws := 1

/-- The state of this hardware right after Reset. -/
def State.reset : State := State.resetOf hw

end Sys2Proof.Machine
end

