-- ==== Sys2Proof/Machine/Ops.lean ====
section
/-! DEFINITION. The named operations over registers, memory, stack, timers, keys and pixels, taking a fault, and the phases of a cycle. -/

namespace Sys2Proof.Machine

/-- What `raise <cause>(info)` carries (spec/00_scope.md R8, spec/60_exceptions.md R222). -/
structure Raise where
  /-- Which fault. -/
  cause : Cause
  /-- The info value of R222. -/
  info : Word
deriving DecidableEq, Repr

/-- The code of a cause (R222). Code 0 is FAULT empty. -/
def Cause.code : Cause → Nat
  | .stackUnderflow => 1
  | .stackOverflow => 2
  | .memoryBounds => 3
  | .invalidKeyIndex => 4

/-! ### Registers -/

/-- VF, the flag register (spec/10_state.md R23). -/
abbrev vF : Reg := 15

/-- Read V[r] (R21). -/
def State.getV (s : State) (r : Reg) : Byte := s.v[r.val]

/-- `V[r] <- b` (R8, R21). -/
def State.setV (s : State) (r : Reg) (b : Byte) : State := { s with v := s.v.set r.val b }

/-- `I <- a` (R24). -/
def State.setI (s : State) (a : Index) : State := { s with i := a }

/-- `PC <- a` (R25). -/
def State.setPc (s : State) (a : ProgramCounter) : State := { s with pc := a }

/-- `DT <- b` (R31). -/
def State.setDt (s : State) (b : Byte) : State := { s with dt := b }

/-- `ST <- b` (R32). -/
def State.setSt (s : State) (b : Byte) : State := { s with st := b }

/-- Replace STACK. -/
def State.setStack (s : State) (l : List Word) : State := { s with stack := l }

/-- Replace FB. -/
def State.setFb (s : State) (f : Framebuffer) : State := { s with fb := f }

/-- Replace MEM. -/
def State.setMem (s : State) (m : Memory) : State := { s with mem := m }

/-- Replace FAULT. -/
def State.setFault (s : State) (f : Option FaultRecord) : State := { s with fault := f }

/-- Read KEY[k] (R33). -/
def State.keyDown (s : State) (k : Key) : Bool := s.key[k.val]

/-- `KEY[k] <- b`: the host's write of the key latch (R33). -/
def State.putKey (s : State) (k : Key) (b : Bool) : State := { s with key := s.key.set k.val b }

/-- Replace the inputs of the coming cycle (R83). -/
def State.setInputs (s : State) (due : Bool) (rnd : Byte) (draws : Nat) : State :=
  { s with due := due, rnd := rnd, draws := draws }

/-- `PC <- (PC + 2) mod 2^16`, done after fetch and before dispatch (spec/30_encoding.md R85). -/
def State.advancePc (s : State) : State := s.setPc (s.pc + 2)

/-- A taken skip: 2 more on the already advanced PC (spec/40_control_flow.md R118). -/
def State.skipIf (s : State) (taken : Bool) : State := if taken then s.setPc (s.pc + 2) else s

/-! ### Memory -/

/-- What MEM holds at `a` after Reset: the font, and 0 elsewhere (spec/20_memory.md R51, R52).
An address that `Memory` does not list reads as this. -/
def unlistedByte (a : Nat) (c : Config := hw) : Byte :=
  if c.fontBase ≤ a then (c.font[a - c.fontBase]?).getD 0 else 0

/-- The byte at `a`. -/
def Memory.read (m : Memory) (a : Nat) (c : Config := hw) : Byte :=
  match m with
  | [] => unlistedByte a c
  | (b, v) :: rest => if b = a then v else Memory.read rest a c

/-- Put a cell in front of the first cell of a higher address. -/
def Memory.insert (c : Host.Cell) : Memory → Memory
  | [] => [c]
  | d :: rest => if c.1 < d.1 then c :: d :: rest else d :: Memory.insert c rest

/-- Set the byte at `a`; a byte equal to what an unlisted address reads as is not listed. -/
def Memory.write (m : Memory) (a : Nat) (v : Byte) (c : Config := hw) : Memory :=
  let others := m.filter (fun d => d.1 ≠ a)
  if v = unlistedByte a c then others else Memory.insert (a, v) others

/-- The canonical form: addresses strictly rising and inside MEM, no entry equal to what an unlisted address reads as. -/
abbrev Memory.wf (m : Memory) (c : Config := hw) : Prop :=
  m.Pairwise (fun d e => d.1 < e.1) ∧ ∀ d ∈ m, d.1 < c.memSize ∧ d.2 ≠ unlistedByte d.1 c

/-- The byte of MEM at `a`, without a range check. -/
def State.byteAt (s : State) (a : Nat) (c : Config := hw) : Byte := s.mem.read a c

/-- Set the byte of MEM at `a`, without a range check. -/
def State.setByte (s : State) (a : Nat) (b : Byte) (c : Config := hw) : State := s.setMem (s.mem.write a b c)

/-- `CheckRange(addr, n)` (R54). -/
def checkRange (addr n : Nat) (c : Config := hw) : Except Raise Unit :=
  if 0 < n ∧ c.memSize < addr + n then .error ⟨.memoryBounds, BitVec.ofNat 16 addr⟩ else .ok ()

/-- `MemRead(addr, 1)` with its bounds check; the info of a failed one is I (R53). -/
def State.memRead (s : State) (addr : Nat) (c : Config := hw) : Except Raise Byte :=
  if c.memSize < addr + 1 then .error ⟨.memoryBounds, s.i⟩ else .ok (s.byteAt addr c)

/-- `MemWrite(addr, 1, b)` with its bounds check (R53). -/
def State.memWrite (s : State) (addr : Nat) (b : Byte) (c : Config := hw) : Except Raise State :=
  if c.memSize < addr + 1 then .error ⟨.memoryBounds, s.i⟩ else .ok (s.setByte addr b c)

/-- Write the bytes of a list at rising addresses from `addr`, in order (R55, R61). -/
def State.memWriteAll (s : State) (addr : Nat) (bytes : List Byte) (c : Config := hw) : Except Raise State :=
  match bytes with
  | [] => .ok s
  | b :: rest =>
    match s.memWrite addr b c with
    | .ok t => t.memWriteAll (addr + 1) rest c
    | .error r => .error r

/-- The word at PC: `(MEM[PC] << 8) | MEM[PC+1]` (spec/30_encoding.md R84). It is fetched only when PC ≤ 0x0FFE, so it needs no check. -/
def State.fetchWord (s : State) (c : Config := hw) : Word :=
  wordOfBytes (s.byteAt s.pc.toNat c) (s.byteAt (s.pc.toNat + 1) c)

/-- The state with a word stored at PC, big-endian (R55). -/
def State.storeWordAtPc (s : State) (w : Word) (c : Config := hw) : State :=
  (s.setByte s.pc.toNat (highByte w) c).setByte (s.pc.toNat + 1) (lowByte w) c

/-! ### Call stack -/

/-- `Push(v)` on a stack of the given depth (spec/10_state.md R29). -/
def State.push (s : State) (depth : Nat) (v : Word) : Except Raise State :=
  if depth ≤ s.stack.length then .error ⟨.stackOverflow, BitVec.ofNat 16 depth⟩ else .ok (s.setStack (v :: s.stack))

/-- `Pop()` (R30): the top entry, and the state without it. -/
def State.pop (s : State) : Except Raise (Word × State) :=
  match s.stack with
  | [] => .error ⟨.stackUnderflow, 0⟩
  | v :: rest => .ok (v, s.setStack rest)

/-! ### Framebuffer -/

/-- FB[px, py] (R34). -/
def State.pixel (s : State) (px : Column) (py : Row) : Bool := (s.fb[py.val])[px.val]

/-- `FB[px, py] <- b` (R34). -/
def State.setPixel (s : State) (px : Column) (py : Row) (b : Bool) : State :=
  s.setFb (s.fb.set py.val ((s.fb[py.val]).set px.val b))

/-! ### Faults -/

/-- Taking a fault (spec/60_exceptions.md R223), from the state at the start of the cycle: nothing of the cycle is kept, and FAULT
records the cause, the address of the instruction, its word and the info. There is no return from a fault but Reset (R224, R228). -/
def State.takeFault (s : State) (w : Word) (r : Raise) : State :=
  s.setFault (some { cause := r.cause, pc := s.pc, word := w, info := r.info })

/-- The execute step of an instruction that may raise (spec/30_encoding.md R83): the body runs with PC already at a + 2; on a raise
the cycle is discarded. `s` is the state at the start of the cycle and `w` the instruction's word. -/
def State.execute (s : State) (w : Word) (body : State → Except Raise State) : Outcome :=
  match body s.advancePc with
  | .ok t => .next t
  | .error r => .next (s.takeFault w r)

/-! ### Timers and the end of a cycle -/

/-- `(T > 0) ? T - 1 : 0` (R230). -/
def decTimer (t : Byte) : Byte := if t = 0 then 0 else t - 1

/-- TimerStep (R230); a model has no T_LAST (R38). -/
def State.timerStep (s : State) : State := (s.setDt (decTimer s.dt)).setSt (decTimer s.st)

/-- A timer after the `if due: TimerStep()` of a cycle (R83). A timer at 0 stays 0 whatever `due` is, so `due` is not looked at. -/
def timerAfter (due : Bool) (t : Byte) : Byte := if t = 0 then t else if due then decTimer t else t

/-- Draw the inputs of the next cycle (R231, R235). -/
def State.drawInputs (s : State) : State :=
  s.setInputs (Config.drawDue s.draws) (Config.drawRnd s.draws) (s.draws + 1)

/-- The end of a cycle that executed an instruction: the timer step if `due` (R83, R230), then the draw of the next inputs. -/
def State.endCycle (s : State) : State :=
  ((s.setDt (timerAfter s.due s.dt)).setSt (timerAfter s.due s.st)).drawInputs

/-- An exhausted cycle (R83, R221): nothing, or with TIMERS_TICK_WHEN_EXHAUSTED the timer step if `due` (decision D8). -/
def State.exhaustedCycle (tick : Bool) (s : State) : State := if tick then s.endCycle else s

/-- PC > 0x0FFE (R11, R221). -/
def State.exhausted (s : State) (c : Config := hw) : Bool := decide (c.pcLimit < s.pc)

/-- What follows the execute step: a cycle that raised a fault ends there, any other takes the end of the cycle (R83, R223). -/
def finishCycle : Outcome → Outcome
  | .next t => .next (if t.fault.isSome then t else t.endCycle)
  | .fault r => .fault r
  | .refused r => .refused r

end Sys2Proof.Machine
end

