-- ==== Sys2Proof/Machine/Flags.lean ====
section
/-! DEFINITION. The values VF takes as the flag register (spec/10_state.md R23, spec/41_alu.md R128, R129). The order of the flag
write and the result write is each instruction's own, in Machine/Alu.lean and Machine/Display.lean. -/

namespace Sys2Proof.Machine

/-- A flag in VF: 1 or 0. -/
def flagByte (b : Bool) : Byte := if b then 1 else 0

/-- The carry of 8xy4: "1 exactly when the 9-bit sum exceeds 255" (R129). -/
def carryFlag (sum : Nat) : Byte := flagByte (decide (255 < sum))

/-- The flag of 8xy5 and 8xy7: "1 exactly when the minuend is strictly greater than the subtrahend" (R129). -/
def greaterFlag (minuend subtrahend : Byte) : Byte := flagByte (decide (subtrahend < minuend))

/-- The bit a right shift moves out (R138). -/
def shiftOutRight (b : Byte) : Byte := flagByte (b.getLsbD 0)

/-- The bit a left shift moves out (R140). -/
def shiftOutLeft (b : Byte) : Byte := flagByte (b.getLsbD 7)

end Sys2Proof.Machine
end

