-- ==== Sys2Proof/Machine/Operands.lean ====
section
/-! DEFINITION. The operand forms of the instruction set (spec/30_encoding.md R81): immediates, register lists, the font address,
decimal digits, key indices and sprite coordinates. -/

namespace Sys2Proof.Machine

/-- `zext_16(nnn)` (R81). -/
def zextAddr (nnn : Imm12) : Word := nnn.setWidth 16

/-- `zext_16` of a byte. -/
def zextByte (b : Byte) : Word := b.setWidth 16

/-- `5 * V[x]`, at most 1275 (spec/42_index_memory.md R162). -/
def glyphAddr (b : Byte) : Word := BitVec.ofNat 16 (5 * b.toNat)

/-- The three decimal digits of a byte, most significant first (R163). -/
def bcdDigits (b : Byte) : List Byte :=
  [BitVec.ofNat 8 (b.toNat / 100), BitVec.ofNat 8 (b.toNat / 10 % 10), BitVec.ofNat 8 (b.toNat % 10)]

/-- The register numbers 0 .. x in rising order (R164, R165). -/
def regsThrough (x : Reg) : List Reg := (List.finRange sizes.numV).filter (fun r => r ≤ x)

/-- The key a register value names; above 15 it names none (spec/44_timers_keys.md R200, R201; decision D5). -/
def keyOperand (b : Byte) : Except Raise Key :=
  if h : b.toNat < sizes.numKeys then .ok ⟨b.toNat, h⟩ else .error ⟨.invalidKeyIndex, zextByte b⟩

/-- A column reduced modulo the screen width (spec/43_display.md R180). -/
def wrapX (n : Nat) : Column := ⟨n % sizes.fbWidth, Nat.mod_lt _ (by decide)⟩

/-- A row reduced modulo the screen height (R180). -/
def wrapY (n : Nat) : Row := ⟨n % sizes.fbHeight, Nat.mod_lt _ (by decide)⟩

/-- Bit `7 - c` of a sprite byte, the pixel of column c: most significant bit first (R180). -/
def spriteBit (b : Byte) (c : Nat) : Bool := b.getLsbD (7 - c)

end Sys2Proof.Machine
end

