-- ==== Sys2Proof/Machine/Alu.lean ====
section
/-! DEFINITION. Immediates, register moves, logic, arithmetic, shifts and the random byte (spec/41_alu.md). Register reads and writes
stand in the order of R128: a read that follows the write of VF sees the new VF. -/

namespace Sys2Proof.Machine

/-- LD Vx, nn (R130). -/
def execLdImm (x : Reg) (nn : Byte) (s : State) : Outcome := .next (s.advancePc.setV x nn)

/-- ADD Vx, nn (R131): wraps, and VF is no carry. -/
def execAddImm (x : Reg) (nn : Byte) (s : State) : Outcome := .next (s.advancePc.setV x (s.getV x + nn))

/-- LD Vx, Vy (R132). -/
def execLdReg (x y : Reg) (s : State) : Outcome := .next (s.advancePc.setV x (s.getV y))

/-- OR Vx, Vy (R133). -/
def execOrReg (x y : Reg) (s : State) : Outcome := .next (s.advancePc.setV x (s.getV x ||| s.getV y))

/-- AND Vx, Vy (R134). -/
def execAndReg (x y : Reg) (s : State) : Outcome := .next (s.advancePc.setV x (s.getV x &&& s.getV y))

/-- XOR Vx, Vy (R135). -/
def execXorReg (x y : Reg) (s : State) : Outcome := .next (s.advancePc.setV x (s.getV x ^^^ s.getV y))

/-- ADD Vx, Vy (R136): the sum from the old registers, then VF, then the result. -/
def execAddReg (x y : Reg) (s : State) : Outcome :=
  let sum := (s.getV x).toNat + (s.getV y).toNat
  .next ((s.advancePc.setV vF (carryFlag sum)).setV x (BitVec.ofNat 8 sum))

/-- SUB Vx, Vy (R137): VF, then the difference of the registers as they then stand. -/
def execSub (x y : Reg) (s : State) : Outcome :=
  let t := s.advancePc.setV vF (greaterFlag (s.getV x) (s.getV y))
  .next (t.setV x (t.getV x - t.getV y))

/-- SHR Vx (R138): VF, then the shift of V[x] as it then stands; V[y] is not read. -/
def execShr (x _y : Reg) (s : State) : Outcome :=
  let t := s.advancePc.setV vF (shiftOutRight (s.getV x))
  .next (t.setV x (t.getV x >>> 1))

/-- SUBN Vx, Vy (R139): VF, then the difference of the registers as they then stand. -/
def execSubn (x y : Reg) (s : State) : Outcome :=
  let t := s.advancePc.setV vF (greaterFlag (s.getV y) (s.getV x))
  .next (t.setV x (t.getV y - t.getV x))

/-- SHL Vx (R140): VF, then the shift of V[x] as it then stands; V[y] is not read. -/
def execShl (x _y : Reg) (s : State) : Outcome :=
  let t := s.advancePc.setV vF (shiftOutLeft (s.getV x))
  .next (t.setV x (t.getV x <<< 1))

/-- RND Vx, nn (R141): the cycle's input `rnd`, a free draw, masked with nn. -/
def execRnd (x : Reg) (nn : Byte) (s : State) : Outcome := .next (s.advancePc.setV x (s.rnd &&& nn))

end Sys2Proof.Machine
end

