-- ==== Sys2Proof/Machine/ControlFlow.lean ====
section
/-! DEFINITION. SYS, return, jumps, call and skips (spec/40_control_flow.md; spec/30_encoding.md R87). Each meaning takes the state at
the start of the cycle. -/

namespace Sys2Proof.Machine

/-- SYS nnn: a no-op word (R87; spec/90_conflicts.md C1). -/
def execSys (_nnn : Imm12) (s : State) : Outcome := .next s.advancePc

/-- A no-op word of groups 5, 8, 9, E, F, none of which is an instruction: no state changes beyond the PC advance (R87). -/
def execNoOpWord (_g : NoOpGroup) (s : State) : Outcome := .next s.advancePc

/-- RET (R110). -/
def execRet (s : State) : Outcome :=
  s.execute (encode .ret) fun t =>
    match t.pop with
    | .ok (a, u) => .ok (u.setPc a)
    | .error r => .error r

/-- JP nnn (R111). -/
def execJp (nnn : Imm12) (s : State) : Outcome := .next (s.advancePc.setPc (zextAddr nnn))

/-- CALL nnn (R112): the address pushed is the already advanced PC. -/
def execCall (nnn : Imm12) (s : State) (c : Config := hw) : Outcome :=
  s.execute (encode (.call nnn)) fun t =>
    match t.push c.stackDepth t.pc with
    | .ok u => .ok (u.setPc (zextAddr nnn))
    | .error r => .error r

/-- SE Vx, nn (R113). -/
def execSeImm (x : Reg) (nn : Byte) (s : State) : Outcome := .next (s.advancePc.skipIf (s.getV x == nn))

/-- SNE Vx, nn (R114). -/
def execSneImm (x : Reg) (nn : Byte) (s : State) : Outcome := .next (s.advancePc.skipIf (s.getV x != nn))

/-- SE Vx, Vy (R115). -/
def execSeReg (x y : Reg) (s : State) : Outcome := .next (s.advancePc.skipIf (s.getV x == s.getV y))

/-- SNE Vx, Vy (R116). -/
def execSneReg (x y : Reg) (s : State) : Outcome := .next (s.advancePc.skipIf (s.getV x != s.getV y))

/-- JP V0, nnn (R117): the sum is not reduced to 12 bits. -/
def execJpV0 (nnn : Imm12) (s : State) : Outcome :=
  .next (s.advancePc.setPc (zextAddr nnn + zextByte (s.getV 0)))

end Sys2Proof.Machine
end

