-- ==== Sys2Proof/Machine/Display.lean ====
section
/-! DEFINITION. The framebuffer: clear, draw and collision (spec/43_display.md). -/

namespace Sys2Proof.Machine

/-- CLS (R181). -/
def execCls (s : State) : Outcome :=
  .next (s.advancePc.setFb (Vector.replicate sizes.fbHeight (Vector.replicate sizes.fbWidth false)))

/-- Toggle one pixel; VF becomes 1 if it was set (R182). -/
def State.drawPixel (s : State) (px : Column) (py : Row) : State :=
  (if s.pixel px py then s.setV vF 1 else s).setPixel px py (!s.pixel px py)

/-- Column `c` of row `r` of a sprite at the origin (ox, oy), the row's byte being `b` (R182). -/
def State.drawColumn (ox oy r : Nat) (b : Byte) (s : State) (c : Nat) : State :=
  if spriteBit b c then s.drawPixel (wrapX (ox + c)) (wrapY (oy + r)) else s

/-- Row `r` of a sprite: its columns 0 .. 7 in order (R182). -/
def State.drawRow (s : State) (ox oy r : Nat) (b : Byte) : State :=
  (List.range 8).foldl (State.drawColumn ox oy r b) s

/-- The rows of a list, in order, each byte read from I + r (R182). -/
def State.drawRows (s : State) (ox oy : Nat) (rows : List Nat) (c : Config := hw) : Except Raise State :=
  match rows with
  | [] => .ok s
  | r :: rest =>
    match s.memRead (s.i.toNat + r) c with
    | .ok b => (s.drawRow ox oy r b).drawRows ox oy rest c
    | .error e => .error e

/-- DRW Vx, Vy, n (R182): origin, range check, VF cleared, then the rows (decision D12: the origin is read before VF is cleared). -/
def execDrw (x y : Reg) (n : Nibble) (s : State) (c : Config := hw) : Outcome :=
  s.execute (encode (.drw x y n)) fun t =>
    let ox := (t.getV x).toNat % sizes.fbWidth
    let oy := (t.getV y).toNat % sizes.fbHeight
    match checkRange t.i.toNat n.toNat c with
    | .ok _ => (t.setV vF 0).drawRows ox oy (List.range n.toNat) c
    | .error r => .error r

end Sys2Proof.Machine
end

