-- ==== Sys2Proof/Machine/IndexMemory.lean ====
section
/-! DEFINITION. The index register and memory transfers (spec/42_index_memory.md). The whole range is checked before any effect
(spec/20_memory.md R54), and a transfer leaves I as it was (decision D17). -/

namespace Sys2Proof.Machine

/-- LD I, nnn (R160). -/
def execLdI (nnn : Imm12) (s : State) : Outcome := .next (s.advancePc.setI (zextAddr nnn))

/-- ADD I, Vx (R161): wraps at 16 bits, no flag. -/
def execAddI (x : Reg) (s : State) : Outcome := .next (s.advancePc.setI (s.i + zextByte (s.getV x)))

/-- LD F, Vx (R162). -/
def execLdF (x : Reg) (s : State) : Outcome := .next (s.advancePc.setI (glyphAddr (s.getV x)))

/-- Check the whole range at I, then write the bytes there (R54, R163, R164). -/
def State.storeAtI (s : State) (bytes : List Byte) (c : Config := hw) : Except Raise State :=
  match checkRange s.i.toNat bytes.length c with
  | .ok _ => s.memWriteAll s.i.toNat bytes c
  | .error r => .error r

/-- LD B, Vx (R163). -/
def execLdB (x : Reg) (s : State) (c : Config := hw) : Outcome :=
  s.execute (encode (.ldB x)) fun t => t.storeAtI (bcdDigits (t.getV x)) c

/-- LD [I], Vx (R164). -/
def execStoreRegs (x : Reg) (s : State) (c : Config := hw) : Outcome :=
  s.execute (encode (.storeRegs x)) fun t => t.storeAtI ((regsThrough x).map t.getV) c

/-- `V[r] <- MemRead(I + r, 1)` for each register of a list, in order (R165). -/
def State.loadFromI (s : State) (rs : List Reg) (c : Config := hw) : Except Raise State :=
  match rs with
  | [] => .ok s
  | r :: rest =>
    match s.memRead (s.i.toNat + r.val) c with
    | .ok b => (s.setV r b).loadFromI rest c
    | .error e => .error e

/-- LD Vx, [I] (R165). -/
def execLoadRegs (x : Reg) (s : State) (c : Config := hw) : Outcome :=
  s.execute (encode (.loadRegs x)) fun t =>
    match checkRange t.i.toNat (x.val + 1) c with
    | .ok _ => t.loadFromI (regsThrough x) c
    | .error r => .error r

end Sys2Proof.Machine
end

