-- ==== Sys2Proof/Machine/TimersKeys.lean ====
section
/-! DEFINITION. Key tests, the key wait and timer transfers (spec/44_timers_keys.md). The timer step of the same cycle comes after
(spec/60_exceptions.md R230). -/

namespace Sys2Proof.Machine

/-- SKP Vx (R200). -/
def execSkp (x : Reg) (s : State) : Outcome :=
  s.execute (encode (.skp x)) fun t =>
    match keyOperand (t.getV x) with
    | .ok k => .ok (t.skipIf (t.keyDown k))
    | .error r => .error r

/-- SKNP Vx (R201). -/
def execSknp (x : Reg) (s : State) : Outcome :=
  s.execute (encode (.sknp x)) fun t =>
    match keyOperand (t.getV x) with
    | .ok k => .ok (t.skipIf (!t.keyDown k))
    | .error r => .error r

/-- LD Vx, DT (R202). -/
def execLdVxDt (x : Reg) (s : State) : Outcome := .next (s.advancePc.setV x s.dt)

/-- The lowest-numbered pressed key (R203). -/
def State.firstKey (s : State) : Option Key := (List.finRange sizes.numKeys).find? s.keyDown

/-- LD Vx, K (R203): the lowest pressed key, or PC back to this instruction. -/
def execLdVxK (x : Reg) (s : State) : Outcome :=
  match s.firstKey with
  | some k => .next (s.advancePc.setV x (BitVec.ofNat 8 k.val))
  | none => .next (s.advancePc.setPc (s.advancePc.pc - 2))

/-- LD DT, Vx (R204). -/
def execLdDtVx (x : Reg) (s : State) : Outcome := .next (s.advancePc.setDt (s.getV x))

/-- LD ST, Vx (R205). -/
def execLdStVx (x : Reg) (s : State) : Outcome := .next (s.advancePc.setSt (s.getV x))

end Sys2Proof.Machine
end

