-- ==== Sys2Proof/Machine/Cycle.lean ====
section
/-! DEFINITION. One cycle, the core's only step (spec/30_encoding.md R83). -/

namespace Sys2Proof.Machine

/-- `exec` of a core with the parameters `c` (spec/00_scope.md R6): five instructions read a parameter (STACK_DEPTH, MEM_SIZE, FONT_BASE,
FONT), the others do not look at it. With this hardware's it is `exec` (`execWith_hw` in Laws/Ops.lean). -/
def execWith (c : Config) (i : Instr) (s : State) : Outcome :=
  match i with
  | .call nnn => execCall nnn s c
  | .drw x y n => execDrw x y n s c
  | .ldB x => execLdB x s c
  | .storeRegs x => execStoreRegs x s c
  | .loadRegs x => execLoadRegs x s c
  | .cls | .ret | .sys _ | .jp _ | .seImm _ _ | .sneImm _ _ | .seReg _ _ | .ldImm _ _ | .addImm _ _ | .ldReg _ _ | .orReg _ _
  | .andReg _ _ | .xorReg _ _ | .addReg _ _ | .sub _ _ | .shr _ _ | .subn _ _ | .shl _ _ | .sneReg _ _ | .ldI _ | .jpV0 _ | .rnd _ _
  | .skp _ | .sknp _ | .ldVxDt _ | .ldVxK _ | .ldDtVx _ | .ldStVx _ | .addI _ | .ldF _ => exec i s

/-- The execute step for a fetched word: an instruction of the table, or a no-op word (R86, R87). -/
def execWord (w : Word) (s : State) (c : Config := hw) : Outcome :=
  match decode w with
  | .ok i => execWith c i s
  | .error g => execNoOpWord g s

/-- One cycle with the inputs the state holds (R83). It tests, in order, FAULT not empty (R224), PC above the limit (R221), then
fetches and executes (R225). -/
def cycle (s : State) (c : Config := hw) : Outcome :=
  if s.fault.isSome then .next s
  else if s.exhausted c then .next (s.exhaustedCycle c.timersTickWhenExhausted)
  else finishCycle (execWord (s.fetchWord c) s c)

/-- `Cycle(due, rnd)` of R83 with its inputs as arguments: whatever the state holds as the inputs of the coming cycle is replaced. -/
def cycleWith (due : Bool) (rnd : Byte) (s : State) (c : Config := hw) : Outcome := cycle (s.setInputs due rnd s.draws) c

/-- Ready the core to fetch at its PC: no fault, and a PC a fetch can happen at (R83). A core that fetches already is left as it is. -/
def State.readyToFetch (s : State) (c : Config := hw) : State :=
  (s.setFault none).setPc (if s.exhausted c then c.pcReset else s.pc)

/-- The state whose next cycle fetches the word of the opcode table's numbering (see `decodeTableWord`). -/
def State.placeFetchWord (s : State) (nbits w : Nat) (c : Config := hw) : State :=
  (s.readyToFetch c).storeWordAtPc (tableWord nbits w) c

end Sys2Proof.Machine
end

