-- ==== Sys2Proof/Machine/Step.lean ====
section
/-! DEFINITION. The step of the machine: one cycle (spec/30_encoding.md R83). -/

namespace Sys2Proof.Machine

/-- One step is one cycle. -/
def step (s : State) : Host.Outcome State Fault Refusal := cycle s

/-- The state with the instruction whose bits are `w` stored where the next step fetches (notes/assumptions/24.md). -/
def State.withFetchWord (s : State) (nbits w : Nat) : State := s.placeFetchWord nbits w

end Sys2Proof.Machine
end

