-- ==== Sys2Proof/Machine/Ports.lean ====
section
/-! DEFINITION. The host ports of the core, each one operation between two cycles (spec/70_reset_and_hazards.md R263). A port that
fails returns its error and changes no state (spec/60_exceptions.md R226). -/

namespace Sys2Proof.Machine

/-- The errors a host port reports to its caller; none is recorded in FAULT (R226). -/
inductive PortError where
  /-- loadRom with more than ROM_MAX bytes (spec/20_memory.md R65). -/
  | romTooLarge
  /-- A hex text of odd length or with a character that is no hexadecimal digit (R66). -/
  | invalidHexEncoding
  /-- A key index outside 0..15 (R234). -/
  | invalidKeyIndex
  /-- Pixel coordinates outside 64×32, or a memory address outside 0x000–0xFFF (R184, R67). -/
  | outOfBounds
deriving DecidableEq, Repr

/-- Reset (spec/70_reset_and_hazards.md R260): every piece of the core's state takes its reset value. The inputs of the coming cycle
are not state of the core (R20), and stay (notes/assumptions/27.md). -/
def portReset (s : State) (c : Config := hw) : State := (State.resetOf c).setInputs s.due s.rnd s.draws

/-- Write bytes at rising addresses. -/
def Memory.writeAll (m : Memory) (a : Nat) (bytes : List Byte) (c : Config := hw) : Memory :=
  match bytes with
  | [] => m
  | b :: rest => Memory.writeAll (m.write a b c) (a + 1) rest c

/-- The addresses of font bytes that lie in the program region, PROGRAM_START to the end of MEM: with this hardware's parameters, none. -/
def fontInProgram (c : Config := hw) : List Nat :=
  ((List.range sizes.fontSize).map (c.fontBase + ·)).filter (fun a => decide (c.pcReset.toNat ≤ a) && decide (a < c.memSize))

/-- MEM with the program region zeroed (R65): no byte of it listed, but for a 0 over each font byte in it. -/
def Memory.clearProgram (m : Memory) (c : Config := hw) : Memory :=
  (fontInProgram c).foldl (fun u a => u.write a 0 c) (m.filter (fun d => decide (d.1 < c.pcReset.toNat)))

/-- `loadRom(bytes)` (R65): the length check comes first; nothing but 0x200–0xFFF changes (decision D19). -/
def portLoadRom (bytes : List Byte) (s : State) (c : Config := hw) : Except PortError State :=
  if c.romMax < bytes.length then .error .romTooLarge
  else .ok (s.setMem (Memory.writeAll (s.mem.clearProgram c) c.pcReset.toNat bytes c))

/-- Unicode white space (R66; decision D20). PRESUMED: the members of the set are not in spec/; notes/assumptions/21.md. -/
def isWhite (c : Char) : Bool :=
  let n := c.toNat
  (decide (9 ≤ n) && decide (n ≤ 13)) || n == 0x20 || n == 0x85 || n == 0xA0 || n == 0x1680 ||
    (decide (0x2000 ≤ n) && decide (n ≤ 0x200A)) || n == 0x2028 || n == 0x2029 || n == 0x202F || n == 0x205F || n == 0x3000

/-- The value of a hexadecimal digit, in either case (R66). -/
def hexDigit (c : Char) : Option Nat :=
  let n := c.toNat
  if 0x30 ≤ n ∧ n ≤ 0x39 then some (n - 0x30)
  else if 0x41 ≤ n ∧ n ≤ 0x46 then some (n - 0x41 + 10)
  else if 0x61 ≤ n ∧ n ≤ 0x66 then some (n - 0x61 + 10)
  else none

/-- Pairs of digits as bytes, the first of a pair the high nibble; `none` for an odd length or another character (R66). -/
def hexPairs : List Char → Option (List Byte)
  | [] => some []
  | [_] => none
  | a :: b :: rest =>
    match hexDigit a, hexDigit b, hexPairs rest with
    | some h, some l, some bytes => some (BitVec.ofNat 8 (16 * h + l) :: bytes)
    | _, _, _ => none

/-- `loadRomFromHexText(text)` (R66), host software that feeds loadRom. -/
def portLoadRomFromHexText (text : List Char) (s : State) (c : Config := hw) : Except PortError State :=
  match hexPairs (text.filter (fun d => !isWhite d)) with
  | some bytes => portLoadRom bytes s c
  | none => .error .invalidHexEncoding

/-- The key an index of the keypad ports names (R234). -/
def keyIndex (k : Int) : Except PortError Key :=
  if h : 0 ≤ k ∧ k < sizes.numKeys then .ok ⟨k.toNat, by omega⟩ else .error .invalidKeyIndex

/-- `setKey(index, pressed)` (R234). -/
def portSetKey (k : Int) (pressed : Bool) (s : State) : Except PortError State :=
  match keyIndex k with
  | .ok r => .ok (s.putKey r pressed)
  | .error e => .error e

/-- `isKeyPressed(index)` (R234). -/
def portIsKeyPressed (k : Int) (s : State) : Except PortError Bool :=
  match keyIndex k with
  | .ok r => .ok (s.keyDown r)
  | .error e => .error e

/-- `pixelAt(x, y)` (spec/43_display.md R184). -/
def portPixelAt (x y : Int) (s : State) : Except PortError Bool :=
  if h : (0 ≤ x ∧ x < sizes.fbWidth) ∧ (0 ≤ y ∧ y < sizes.fbHeight) then .ok (s.pixel ⟨x.toNat, by omega⟩ ⟨y.toNat, by omega⟩)
  else .error .outOfBounds

/-- `memAt(addr)` (R67; decision D21). -/
def portMemAt (a : Int) (s : State) (c : Config := hw) : Except PortError Byte :=
  if 0 ≤ a ∧ a < c.memSize then .ok (s.byteAt a.toNat c) else .error .outOfBounds

/-- `delayTimer()` (R233). -/
def portDelayTimer (s : State) : Byte := s.dt

/-- `soundTimer()` (R233). -/
def portSoundTimer (s : State) : Byte := s.st

/-- The sound output: on exactly when ST ≠ 0 (R232). -/
def soundOn (s : State) : Bool := s.st != 0

/-- What `status()` returns (R233). -/
structure Status where
  /-- PC. -/
  pc : ProgramCounter
  /-- PC > 0x0FFE. -/
  exhausted : Bool
  /-- FAULT. -/
  fault : Option FaultRecord
deriving DecidableEq, Repr

/-- `status()` (R233). -/
def portStatus (s : State) (c : Config := hw) : Status := { pc := s.pc, exhausted := s.exhausted c, fault := s.fault }

/-- The operations of the host (R12, R263). -/
inductive HostOp where
  /-- Reset (R260). -/
  | reset
  /-- loadRom (R65). -/
  | loadRom (bytes : List Byte)
  /-- loadRomFromHexText (R66). -/
  | loadRomFromHexText (text : List Char)
  /-- setKey (R234). -/
  | setKey (k : Int) (pressed : Bool)
  /-- isKeyPressed (R234). -/
  | isKeyPressed (k : Int)
  /-- pixelAt (R184). -/
  | pixelAt (x y : Int)
  /-- memAt (R67). -/
  | memAt (a : Int)
  /-- delayTimer (R233). -/
  | delayTimer
  /-- soundTimer (R233). -/
  | soundTimer
  /-- status (R233). -/
  | status
deriving DecidableEq, Repr

/-- What a host operation answers its caller. -/
inductive Reply where
  /-- A write port that succeeded. -/
  | done
  /-- A Boolean. -/
  | bool (b : Bool)
  /-- A byte. -/
  | byte (b : Byte)
  /-- The status record. -/
  | status (st : Status)
  /-- The port failed. -/
  | error (e : PortError)
deriving DecidableEq, Repr

/-- A write port's state and reply: on an error no state changes (R226). -/
def writeReply (s : State) : Except PortError State → State × Reply
  | .ok t => (t, .done)
  | .error e => (s, .error e)

/-- A read port's reply for a Boolean. -/
def boolReply : Except PortError Bool → Reply
  | .ok b => .bool b
  | .error e => .error e

/-- A read port's reply for a byte. -/
def byteReply : Except PortError Byte → Reply
  | .ok b => .byte b
  | .error e => .error e

/-- One host operation: the state after it and what the host is told. -/
def hostOp (op : HostOp) (s : State) (c : Config := hw) : State × Reply :=
  match op with
  | .reset => (portReset s c, .done)
  | .loadRom bytes => writeReply s (portLoadRom bytes s c)
  | .loadRomFromHexText text => writeReply s (portLoadRomFromHexText text s c)
  | .setKey k b => writeReply s (portSetKey k b s)
  | .isKeyPressed k => (s, boolReply (portIsKeyPressed k s))
  | .pixelAt x y => (s, boolReply (portPixelAt x y s))
  | .memAt a => (s, byteReply (portMemAt a s c))
  | .delayTimer => (s, .byte (portDelayTimer s))
  | .soundTimer => (s, .byte (portSoundTimer s))
  | .status => (s, .status (portStatus s c))

end Sys2Proof.Machine
end

