-- ==== Sys2Proof/Machine/Events.lean ====
section
/-! DEFINITION. The interleaving of cycles and host operations (spec/70_reset_and_hazards.md R263): a list of events, each entirely
before the next. -/

namespace Sys2Proof.Machine

/-- One event: a cycle of the core, with free inputs or with inputs the reader names (R83), or a host operation. -/
inductive Event where
  /-- A cycle whose inputs are those the state holds, free draws. -/
  | cycle
  /-- A cycle with these inputs. -/
  | cycleWith (due : Bool) (rnd : Byte)
  /-- A host operation. -/
  | host (op : HostOp)
deriving DecidableEq, Repr

/-- One event. -/
def event (e : Event) (s : State) (c : Config := hw) : Outcome :=
  match e with
  | .cycle => cycle s c
  | .cycleWith due rnd => cycleWith due rnd s c
  | .host op => .next (hostOp op s c).1

/-- The events of a list, in order, up to the first that does not answer a next state. -/
def events (es : List Event) (s : State) (c : Config := hw) : Outcome :=
  match es with
  | [] => .next s
  | e :: rest =>
    match event e s c with
    | .next t => events rest t c
    | .fault r => .fault r
    | .refused r => .refused r

end Sys2Proof.Machine
end

