-- ==== Sys2Proof/Machine/Run.lean ====
section
/-! DEFINITION. The end of a run (spec/70_reset_and_hazards.md R269): "a convention of the model, not an event of the core". -/

namespace Sys2Proof.Machine

/-- Why a run is at its end, the four ends of R269 in its order. -/
inductive EndReason where
  /-- (1) FAULT is not empty: a failed run. -/
  | failed
  /-- (2) PC > 0x0FFE: an exhausted run. -/
  | exhausted
  /-- (3) The word at PC is 1nnn with nnn = PC: the idle loop. -/
  | selfJump
  /-- (4) The host stops after the number of cycles the claim names. -/
  | hostStopped
deriving DecidableEq, Repr

/-- The first of the ends (1), (2), (3) of R269 that holds in a state. -/
def endOfRun (s : State) (c : Config := hw) : Option EndReason :=
  if s.fault.isSome then some .failed
  else if s.exhausted c then some .exhausted
  else
    match decode (s.fetchWord c) with
    | .ok (.jp nnn) => if nnn.setWidth sizes.pcWidth = s.pc then some .selfJump else none
    | _ => none

/-- The first of the four ends of R269 that holds in a state from which the host runs `left` more cycles. -/
def endAt (left : Nat) (s : State) (c : Config := hw) : Option EndReason :=
  match endOfRun s c with
  | some r => some r
  | none => if left = 0 then some .hostStopped else none

/-- How many of an event's steps are cycles. -/
def Event.cycles : Event → Nat
  | .cycle => 1
  | .cycleWith _ _ => 1
  | .host _ => 0

/-- How many cycles a list of events holds. -/
def cycleCount (es : List Event) : Nat := (es.map Event.cycles).sum

/-- The end of a run. -/
structure RunEnd where
  /-- Which of the four ends it is. -/
  reason : EndReason
  /-- How many cycles were run before it. -/
  cycles : Nat
  /-- The state in which the run ends. -/
  state : State
deriving DecidableEq, Repr

/-- The end of the run that the events make from a state, with a claim that names `left` cycles (R269): the first cycle boundary at which
one of the four ends holds. `none`: the events are used up and none has held. `done` counts the cycles already run. The ends are looked
for before and after each host operation of a boundary (notes/assumptions/32.md). -/
def runEnd (left : Nat) (es : List Event) (s : State) (done : Nat := 0) (c : Config := hw) : Option RunEnd :=
  match endAt left s c with
  | some r => some { reason := r, cycles := done, state := s }
  | none =>
    match es with
    | [] => none
    | e :: rest =>
      match event e s c with
      | .next t => runEnd (left - e.cycles) rest t (done + e.cycles) c
      | .fault r => nomatch r
      | .refused _ => none

end Sys2Proof.Machine
end

