-- ==== Sys2Proof/Safety.lean ====
section
/-! DEFINITION. The terms claims about this machine use: which parts of the state an event leaves as they were, what the spec's tables say
of an instruction (faults R222, PC R26, registers R22, state R20), and the invariant of every reachable state. -/

namespace Sys2Proof.Machine

/-! ### Frames -/

/-- The parts of the state, as the table of spec/10_state.md R20 lists them, and the model's inputs. -/
inductive Part where
  /-- V0–VF. -/
  | v
  /-- I. -/
  | i
  /-- PC. -/
  | pc
  /-- STACK. -/
  | stack
  /-- DT. -/
  | dt
  /-- ST. -/
  | st
  /-- KEY. -/
  | key
  /-- FB. -/
  | fb
  /-- MEM. -/
  | mem
  /-- FAULT. -/
  | fault
  /-- The inputs due and rnd of the coming cycle, and the count of draws. -/
  | inputs
deriving DecidableEq, Repr

/-- `p.same s t`: the part reads alike in both states. -/
def Part.same (p : Part) (s t : State) : Prop :=
  match p with
  | .v => ∀ r, t.getV r = s.getV r
  | .i => t.i = s.i
  | .pc => t.pc = s.pc
  | .stack => t.stack = s.stack
  | .dt => t.dt = s.dt
  | .st => t.st = s.st
  | .key => ∀ k, t.keyDown k = s.keyDown k
  | .fb => ∀ x y, t.pixel x y = s.pixel x y
  | .mem => ∀ a, t.byteAt a = s.byteAt a
  | .fault => t.fault = s.fault
  | .inputs => t.due = s.due ∧ t.rnd = s.rnd ∧ t.draws = s.draws

/-- Every part that is not listed reads in `t` as in `s`. -/
def ChangesOnly (ps : List Part) (s t : State) : Prop := ∀ p, p ∉ ps → p.same s t

/-- `t` is `s` with a fault taken (R223): the record of R37, and nothing else changed, PC included. -/
def FaultTaken (cause : Cause) (word info : Word) (s t : State) : Prop :=
  t.fault = some { cause := cause, pc := s.pc, word := word, info := info } ∧ ChangesOnly [.fault] s t

/-- The state is one whose next cycle fetches (R225). -/
def State.Running (s : State) : Prop := s.fault = none ∧ s.pc.toNat ≤ 0x0FFE

/-! ### The spec's tables -/

/-- The fault an instruction raises in a state, with its info (the table of R222). "No other instruction can fault." -/
def raisesOn (i : Instr) (s : State) : Option Raise :=
  match i with
  | .ret => if s.stack.length = 0 then some ⟨.stackUnderflow, 0⟩ else none
  | .call _ => if 16 ≤ s.stack.length then some ⟨.stackOverflow, 16⟩ else none
  | .drw _ _ n => if 0 < n.toNat ∧ 4096 < s.i.toNat + n.toNat then some ⟨.memoryBounds, s.i⟩ else none
  | .ldB _ => if 4096 < s.i.toNat + 3 then some ⟨.memoryBounds, s.i⟩ else none
  | .storeRegs x => if 4096 < s.i.toNat + (x.val + 1) then some ⟨.memoryBounds, s.i⟩ else none
  | .loadRegs x => if 4096 < s.i.toNat + (x.val + 1) then some ⟨.memoryBounds, s.i⟩ else none
  | .skp x => if 16 ≤ (s.getV x).toNat then some ⟨.invalidKeyIndex, (s.getV x).setWidth 16⟩ else none
  | .sknp x => if 16 ≤ (s.getV x).toNat then some ⟨.invalidKeyIndex, (s.getV x).setWidth 16⟩ else none
  | .cls | .sys _ | .jp _ | .seImm _ _ | .sneImm _ _ | .seReg _ _ | .ldImm _ _ | .addImm _ _ | .ldReg _ _ => none
  | .orReg _ _ | .andReg _ _ | .xorReg _ _ | .addReg _ _ | .sub _ _ | .shr _ _ | .subn _ _ | .shl _ _ => none
  | .sneReg _ _ | .ldI _ | .jpV0 _ | .rnd _ _ | .ldVxDt _ | .ldVxK _ | .ldDtVx _ | .ldStVx _ | .addI _ | .ldF _ => none

/-- Is the skip condition of a skip instruction met (R113–R116, R200, R201)? -/
def skips (i : Instr) (s : State) : Bool :=
  match i with
  | .seImm x nn => s.getV x == nn
  | .sneImm x nn => s.getV x != nn
  | .seReg x y => s.getV x == s.getV y
  | .sneReg x y => s.getV x != s.getV y
  | .skp x => s.keyDown (Fin.ofNat sizes.numKeys (s.getV x).toNat)
  | .sknp x => !s.keyDown (Fin.ofNat sizes.numKeys (s.getV x).toNat)
  | .cls | .ret | .sys _ | .jp _ | .call _ | .ldImm _ _ | .addImm _ _ | .ldReg _ _ | .orReg _ _ | .andReg _ _ => false
  | .xorReg _ _ | .addReg _ _ | .sub _ _ | .shr _ _ | .subn _ _ | .shl _ _ | .ldI _ | .jpV0 _ | .rnd _ _ => false
  | .drw _ _ _ | .ldVxDt _ | .ldVxK _ | .ldDtVx _ | .ldStVx _ | .addI _ | .ldF _ | .ldB _ | .storeRegs _ | .loadRegs _ => false

/-- Is some key pressed? -/
def State.anyKey (s : State) : Bool := (List.finRange sizes.numKeys).any s.keyDown

/-- PC after the instruction at `s.pc` (the table of spec/10_state.md R26). -/
def pcAfter (i : Instr) (s : State) : Word :=
  if (raisesOn i s).isSome then s.pc
  else
    match i with
    | .jp nnn => nnn.setWidth 16
    | .call nnn => nnn.setWidth 16
    | .jpV0 nnn => BitVec.ofNat 16 (nnn.toNat + (s.getV 0).toNat)
    | .ret => s.stack.headD 0
    | .ldVxK _ => if s.anyKey then s.pc + 2 else s.pc
    | .seImm _ _ | .sneImm _ _ | .seReg _ _ | .sneReg _ _ | .skp _ | .sknp _ => if skips i s then s.pc + 4 else s.pc + 2
    | .cls | .sys _ | .ldImm _ _ | .addImm _ _ | .ldReg _ _ | .orReg _ _ | .andReg _ _ | .xorReg _ _ => s.pc + 2
    | .addReg _ _ | .sub _ _ | .shr _ _ | .subn _ _ | .shl _ _ | .ldI _ | .rnd _ _ | .drw _ _ _ => s.pc + 2
    | .ldVxDt _ | .ldDtVx _ | .ldStVx _ | .addI _ | .ldF _ | .ldB _ | .storeRegs _ | .loadRegs _ => s.pc + 2

/-- May the instruction write the register (R22, R23)? -/
def writesReg (i : Instr) (r : Reg) : Bool :=
  match i with
  | .ldImm x _ | .addImm x _ | .ldReg x _ | .orReg x _ | .andReg x _ | .xorReg x _ | .rnd x _ | .ldVxDt x | .ldVxK x => r == x
  | .addReg x _ | .sub x _ | .shr x _ | .subn x _ | .shl x _ => r == x || r == 15
  | .loadRegs x => decide (r ≤ x)
  | .drw _ _ _ => r == 15
  | .cls | .ret | .sys _ | .jp _ | .call _ | .seImm _ _ | .sneImm _ _ | .seReg _ _ | .sneReg _ _ | .ldI _ | .jpV0 _ => false
  | .skp _ | .sknp _ | .ldDtVx _ | .ldStVx _ | .addI _ | .ldF _ | .ldB _ | .storeRegs _ => false

/-- The parts of the state an instruction may change, from each instruction's rule. -/
def partsOf (i : Instr) : List Part :=
  match i with
  | .cls => [.pc, .fb]
  | .ret | .call _ => [.pc, .stack, .fault]
  | .sys _ | .jp _ | .jpV0 _ | .seImm _ _ | .sneImm _ _ | .seReg _ _ | .sneReg _ _ => [.pc]
  | .ldImm _ _ | .addImm _ _ | .ldReg _ _ | .orReg _ _ | .andReg _ _ | .xorReg _ _ => [.pc, .v]
  | .addReg _ _ | .sub _ _ | .shr _ _ | .subn _ _ | .shl _ _ | .rnd _ _ | .ldVxDt _ | .ldVxK _ => [.pc, .v]
  | .ldI _ | .addI _ | .ldF _ => [.pc, .i]
  | .drw _ _ _ => [.pc, .v, .fb, .fault]
  | .skp _ | .sknp _ => [.pc, .fault]
  | .ldDtVx _ => [.pc, .dt]
  | .ldStVx _ => [.pc, .st]
  | .ldB _ | .storeRegs _ => [.pc, .mem, .fault]
  | .loadRegs _ => [.pc, .v, .fault]

/-- The no-op words (the table of spec/30_encoding.md R87), on the word as a number. -/
def isNoOpWord (w : Word) : Bool :=
  let n := w.toNat % 16
  let nn := w.toNat % 256
  match w.toNat / 4096 with
  | 0x0 => w.toNat != 0x00E0 && w.toNat != 0x00EE
  | 0x5 => n != 0
  | 0x8 => [0x8, 0x9, 0xA, 0xB, 0xC, 0xD, 0xF].contains n
  | 0x9 => n != 0
  | 0xE => nn != 0x9E && nn != 0xA1
  | 0xF => ([0x07, 0x0A, 0x15, 0x18, 0x1E, 0x29, 0x33, 0x55, 0x65].contains nn) == false
  | _ => false

/-- Does an n-row sprite at I, drawn at the origin (ox, oy), have a set bit over the pixel (px, py) (R180, R182)? -/
def spriteCovers (s : State) (ox oy n : Nat) (px : Column) (py : Row) : Bool :=
  (List.range n).any fun r => (List.range 8).any fun c =>
    (ox + c) % 64 == px.val && (oy + r) % 32 == py.val && (s.byteAt (s.i.toNat + r)).getLsbD (7 - c)

/-! ### Safe states -/

/-- What holds in every state that Reset, cycles and host operations reach. -/
structure State.Inv (s : State) : Prop where
  /-- MEM is in its canonical form. -/
  memory : s.mem.wf
  /-- STACK holds at most STACK_DEPTH entries (R28). -/
  depth : s.stack.length ≤ 16
  /-- A return address is at most 0x1000: a CALL at 0x0FFE pushes 0x1000 (R110, R112). -/
  returns : ∀ a ∈ s.stack, a.toNat ≤ 0x1000
  /-- "The largest value PC can reach is 0x10FE" (R26). -/
  pcBound : s.pc.toNat ≤ 0x10FE
  /-- FAULT, where it is not empty, records the instruction at PC and a fault that this instruction raises in this state (R222, R223). -/
  faultRecord : ∀ r, s.fault = some r →
    r.pc = s.pc ∧ s.pc.toNat ≤ 0x0FFE ∧ ∃ i, decode r.word = .ok i ∧ raisesOn i s = some ⟨r.cause, r.info⟩

/-! ### Runs -/

/-- After these events none of the four ends of R269 holds, in a run whose claim names `n` cycles. -/
def RunGoesOn (n : Nat) (es : List Event) (s : State) : Prop :=
  ∃ u, events es s = .next u ∧ u.Running ∧ u.fetchWord.toNat ≠ 0x1000 + u.pc.toNat ∧ cycleCount es < n

/-- The end holds in its state, and none of those that R269 lists before it, in a run whose claim names `n` cycles. -/
def RunEnd.Holds (e : RunEnd) (n : Nat) : Prop :=
  match e.reason with
  | .failed => e.state.fault ≠ none
  | .exhausted => e.state.fault = none ∧ 0x0FFE < e.state.pc.toNat
  | .selfJump => e.state.Running ∧ e.state.fetchWord.toNat = 0x1000 + e.state.pc.toNat
  | .hostStopped => e.state.Running ∧ e.state.fetchWord.toNat ≠ 0x1000 + e.state.pc.toNat ∧ e.cycles = n

/-- A run has not failed: FAULT is empty (R269). -/
def State.Safe (s : State) : Prop := s.fault = none

end Sys2Proof.Machine
end

