-- ==== Sys2Proof/Certificates/Slice0/Obligations.lean ====
section
/-! DEFINITION. The statements for the provers. Each docstring names the rules of spec/ it formalises. An instruction's statement says
what word it is, that exec ANSWERS A NEXT STATE in every state, and what that state is: the values the rule gives, and that every other
part of the state reads as before (`ChangesOnly`). `s` is the state at the start of the cycle, with PC at the instruction. -/

open Sys2Proof Sys2Proof.Machine

/-! ### Control flow (spec/40_control_flow.md) -/

/-- R110: RET pops the return address into PC; on an empty stack it raises StackUnderflow and nothing else changes (the record in FAULT is
decision D3 of the spec; notes/assumptions/29.md). -/
def Obligations.RetPopsReturnAddress : Prop :=
  decode 0x00EE = .ok .ret ∧
  ∀ s : State, ∃ t, exec .ret s = .next t ∧
    match s.stack with
    | [] => FaultTaken .stackUnderflow 0x00EE 0 s t
    | a :: rest => t.pc = a ∧ t.stack = rest ∧ ChangesOnly [.pc, .stack] s t

/-- R111: JP nnn. -/
def Obligations.JumpSetsPc : Prop :=
  (∀ nnn : Imm12, decode (BitVec.ofNat 16 (0x1000 + nnn.toNat)) = .ok (.jp nnn)) ∧
  ∀ (nnn : Imm12) (s : State), ∃ t, exec (.jp nnn) s = .next t ∧ t.pc.toNat = nnn.toNat ∧ ChangesOnly [.pc] s t

/-- R112 (and R29): CALL nnn pushes PC + 2 and jumps; with 16 entries it raises StackOverflow and nothing else changes
(decisions D1, D2 and D3 of the spec; notes/assumptions/7.md and 29.md). -/
def Obligations.CallPushesReturnAddress : Prop :=
  (∀ nnn : Imm12, decode (BitVec.ofNat 16 (0x2000 + nnn.toNat)) = .ok (.call nnn)) ∧
  ∀ (nnn : Imm12) (s : State), ∃ t, exec (.call nnn) s = .next t ∧
    if 16 ≤ s.stack.length then FaultTaken .stackOverflow (BitVec.ofNat 16 (0x2000 + nnn.toNat)) 16 s t
    else t.pc.toNat = nnn.toNat ∧ t.stack = (s.pc + 2) :: s.stack ∧ ChangesOnly [.pc, .stack] s t

/-- R113: SE Vx, nn. -/
def Obligations.SkipIfRegisterEqualsByte : Prop :=
  (∀ (x : Reg) (nn : Byte), decode (BitVec.ofNat 16 (0x3000 + 0x100 * x.val + nn.toNat)) = .ok (.seImm x nn)) ∧
  ∀ (x : Reg) (nn : Byte) (s : State), ∃ t, exec (.seImm x nn) s = .next t ∧
    t.pc = (if s.getV x = nn then s.pc + 4 else s.pc + 2) ∧ ChangesOnly [.pc] s t

/-- R114: SNE Vx, nn. -/
def Obligations.SkipIfRegisterDiffersFromByte : Prop :=
  (∀ (x : Reg) (nn : Byte), decode (BitVec.ofNat 16 (0x4000 + 0x100 * x.val + nn.toNat)) = .ok (.sneImm x nn)) ∧
  ∀ (x : Reg) (nn : Byte) (s : State), ∃ t, exec (.sneImm x nn) s = .next t ∧
    t.pc = (if s.getV x = nn then s.pc + 2 else s.pc + 4) ∧ ChangesOnly [.pc] s t

/-- R115, R116: SE Vx, Vy and SNE Vx, Vy; the words 5xyN and 9xyN with N ≠ 0 are no-op words (decision D6 of the spec;
notes/assumptions/10.md). -/
def Obligations.SkipOnRegisterComparison : Prop :=
  (∀ x y : Reg, decode (BitVec.ofNat 16 (0x5000 + 0x100 * x.val + 0x10 * y.val)) = .ok (.seReg x y) ∧
    decode (BitVec.ofNat 16 (0x9000 + 0x100 * x.val + 0x10 * y.val)) = .ok (.sneReg x y)) ∧
  (∀ (x y : Reg) (n : Nibble), n ≠ 0 →
    decode (BitVec.ofNat 16 (0x5000 + 0x100 * x.val + 0x10 * y.val + n.toNat)) = .error .group5 ∧
    decode (BitVec.ofNat 16 (0x9000 + 0x100 * x.val + 0x10 * y.val + n.toNat)) = .error .group9) ∧
  ∀ (x y : Reg) (s : State),
    (∃ t, exec (.seReg x y) s = .next t ∧
      t.pc = (if s.getV x = s.getV y then s.pc + 4 else s.pc + 2) ∧ ChangesOnly [.pc] s t) ∧
    (∃ t, exec (.sneReg x y) s = .next t ∧
      t.pc = (if s.getV x = s.getV y then s.pc + 2 else s.pc + 4) ∧ ChangesOnly [.pc] s t)

/-- R117: JP V0, nnn; the sum is not reduced to 12 bits. -/
def Obligations.JumpWithOffsetAddsV0 : Prop :=
  (∀ nnn : Imm12, decode (BitVec.ofNat 16 (0xB000 + nnn.toNat)) = .ok (.jpV0 nnn)) ∧
  ∀ (nnn : Imm12) (s : State), ∃ t, exec (.jpV0 nnn) s = .next t ∧
    t.pc.toNat = nnn.toNat + (s.getV 0).toNat ∧ ChangesOnly [.pc] s t

/-! ### ALU (spec/41_alu.md) -/

/-- R130: LD Vx, nn. -/
def Obligations.LoadByteSetsRegister : Prop :=
  (∀ (x : Reg) (nn : Byte), decode (BitVec.ofNat 16 (0x6000 + 0x100 * x.val + nn.toNat)) = .ok (.ldImm x nn)) ∧
  ∀ (x : Reg) (nn : Byte) (s : State), ∃ t, exec (.ldImm x nn) s = .next t ∧ t.pc = s.pc + 2 ∧
    (∀ r, t.getV r = if r = x then nn else s.getV r) ∧ ChangesOnly [.v, .pc] s t

/-- R131: ADD Vx, nn wraps modulo 256 and writes no flag. -/
def Obligations.AddByteWrapsWithoutFlag : Prop :=
  (∀ (x : Reg) (nn : Byte), decode (BitVec.ofNat 16 (0x7000 + 0x100 * x.val + nn.toNat)) = .ok (.addImm x nn)) ∧
  ∀ (x : Reg) (nn : Byte) (s : State), ∃ t, exec (.addImm x nn) s = .next t ∧ t.pc = s.pc + 2 ∧
    (∀ r, (t.getV r).toNat = if r = x then ((s.getV x).toNat + nn.toNat) % 256 else (s.getV r).toNat) ∧
    ChangesOnly [.v, .pc] s t

/-- R132: LD Vx, Vy. -/
def Obligations.CopyRegister : Prop :=
  (∀ x y : Reg, decode (BitVec.ofNat 16 (0x8000 + 0x100 * x.val + 0x10 * y.val)) = .ok (.ldReg x y)) ∧
  ∀ (x y : Reg) (s : State), ∃ t, exec (.ldReg x y) s = .next t ∧ t.pc = s.pc + 2 ∧
    (∀ r, t.getV r = if r = x then s.getV y else s.getV r) ∧ ChangesOnly [.v, .pc] s t

/-- R133, R134, R135: OR, AND and XOR Vx, Vy, bit by bit; VF is not a flag. -/
def Obligations.LogicIsBitwiseWithoutFlag : Prop :=
  (∀ x y : Reg, decode (BitVec.ofNat 16 (0x8001 + 0x100 * x.val + 0x10 * y.val)) = .ok (.orReg x y) ∧
    decode (BitVec.ofNat 16 (0x8002 + 0x100 * x.val + 0x10 * y.val)) = .ok (.andReg x y) ∧
    decode (BitVec.ofNat 16 (0x8003 + 0x100 * x.val + 0x10 * y.val)) = .ok (.xorReg x y)) ∧
  ∀ (x y : Reg) (s : State),
    (∃ t, exec (.orReg x y) s = .next t ∧ t.pc = s.pc + 2 ∧
      (∀ k < 8, (t.getV x).getLsbD k = ((s.getV x).getLsbD k || (s.getV y).getLsbD k)) ∧
      (∀ r, r ≠ x → t.getV r = s.getV r) ∧ ChangesOnly [.v, .pc] s t) ∧
    (∃ t, exec (.andReg x y) s = .next t ∧ t.pc = s.pc + 2 ∧
      (∀ k < 8, (t.getV x).getLsbD k = ((s.getV x).getLsbD k && (s.getV y).getLsbD k)) ∧
      (∀ r, r ≠ x → t.getV r = s.getV r) ∧ ChangesOnly [.v, .pc] s t) ∧
    (∃ t, exec (.xorReg x y) s = .next t ∧ t.pc = s.pc + 2 ∧
      (∀ k < 8, (t.getV x).getLsbD k = ((s.getV x).getLsbD k != (s.getV y).getLsbD k)) ∧
      (∀ r, r ≠ x → t.getV r = s.getV r) ∧ ChangesOnly [.v, .pc] s t)

/-- R136: ADD Vx, Vy; the sum comes from the old registers, VF is the carry, and with x = F the sum is what VF holds. -/
def Obligations.AddRegistersSetsCarry : Prop :=
  (∀ x y : Reg, decode (BitVec.ofNat 16 (0x8004 + 0x100 * x.val + 0x10 * y.val)) = .ok (.addReg x y)) ∧
  ∀ (x y : Reg) (s : State), ∃ t, exec (.addReg x y) s = .next t ∧ t.pc = s.pc + 2 ∧
    (∀ r, (t.getV r).toNat =
      if r = x then ((s.getV x).toNat + (s.getV y).toNat) % 256
      else if r = 15 then (if (s.getV x).toNat + (s.getV y).toNat > 255 then 1 else 0)
      else (s.getV r).toNat) ∧
    ChangesOnly [.v, .pc] s t

/-- R137: SUB Vx, Vy; VF is written first, so with x = F or y = F the difference reads the new flag
(decision D11 of the spec; notes/assumptions/13.md). -/
def Obligations.SubSetsStrictFlagFirst : Prop :=
  (∀ x y : Reg, decode (BitVec.ofNat 16 (0x8005 + 0x100 * x.val + 0x10 * y.val)) = .ok (.sub x y)) ∧
  ∀ (x y : Reg) (s : State), ∃ t, exec (.sub x y) s = .next t ∧ t.pc = s.pc + 2 ∧
    (∀ r, t.getV r =
      if r = x then
        (if x = y then 0
         else if x = 15 then (if (s.getV x).toNat > (s.getV y).toNat then 1 else 0) - s.getV y
         else if y = 15 then s.getV x - (if (s.getV x).toNat > (s.getV y).toNat then 1 else 0)
         else s.getV x - s.getV y)
      else if r = 15 then (if (s.getV x).toNat > (s.getV y).toNat then 1 else 0)
      else s.getV r) ∧
    ChangesOnly [.v, .pc] s t

/-- R138: SHR Vx; VF is bit 0, Vy is not read, and with x = F VF always ends 0 (decision D11 of the spec;
notes/assumptions/13.md). -/
def Obligations.ShiftRightMovesBitZeroToFlag : Prop :=
  (∀ x y : Reg, decode (BitVec.ofNat 16 (0x8006 + 0x100 * x.val + 0x10 * y.val)) = .ok (.shr x y)) ∧
  ∀ (x y : Reg) (s : State), ∃ t, exec (.shr x y) s = .next t ∧ t.pc = s.pc + 2 ∧
    (∀ r, (t.getV r).toNat =
      if r = x then (if x = 15 then 0 else (s.getV x).toNat / 2)
      else if r = 15 then (s.getV x).toNat % 2
      else (s.getV r).toNat) ∧
    ChangesOnly [.v, .pc] s t

/-- R139: SUBN Vx, Vy; VF is written first, so with x = F or y = F the difference reads the new flag
(decision D11 of the spec; notes/assumptions/13.md). -/
def Obligations.SubnSetsStrictFlagFirst : Prop :=
  (∀ x y : Reg, decode (BitVec.ofNat 16 (0x8007 + 0x100 * x.val + 0x10 * y.val)) = .ok (.subn x y)) ∧
  ∀ (x y : Reg) (s : State), ∃ t, exec (.subn x y) s = .next t ∧ t.pc = s.pc + 2 ∧
    (∀ r, t.getV r =
      if r = x then
        (if x = y then 0
         else if x = 15 then s.getV y - (if (s.getV y).toNat > (s.getV x).toNat then 1 else 0)
         else if y = 15 then (if (s.getV y).toNat > (s.getV x).toNat then 1 else 0) - s.getV x
         else s.getV y - s.getV x)
      else if r = 15 then (if (s.getV y).toNat > (s.getV x).toNat then 1 else 0)
      else s.getV r) ∧
    ChangesOnly [.v, .pc] s t

/-- R140: SHL Vx; VF is bit 7, Vy is not read, and with x = F VF ends as 2 or 0 (decision D11 of the spec;
notes/assumptions/13.md). -/
def Obligations.ShiftLeftMovesBitSevenToFlag : Prop :=
  (∀ x y : Reg, decode (BitVec.ofNat 16 (0x800E + 0x100 * x.val + 0x10 * y.val)) = .ok (.shl x y)) ∧
  ∀ (x y : Reg) (s : State), ∃ t, exec (.shl x y) s = .next t ∧ t.pc = s.pc + 2 ∧
    (∀ r, (t.getV r).toNat =
      if r = x then (if x = 15 then (if (s.getV x).toNat ≥ 128 then 2 else 0) else (s.getV x).toNat * 2 % 256)
      else if r = 15 then (if (s.getV x).toNat ≥ 128 then 1 else 0)
      else (s.getV r).toNat) ∧
    ChangesOnly [.v, .pc] s t

/-- R141: RND Vx, nn masks the cycle's input rnd, which is any byte: the statement holds for every value of it. -/
def Obligations.RandomByteIsMasked : Prop :=
  (∀ (x : Reg) (nn : Byte), decode (BitVec.ofNat 16 (0xC000 + 0x100 * x.val + nn.toNat)) = .ok (.rnd x nn)) ∧
  ∀ (x : Reg) (nn : Byte) (s : State), ∃ t, exec (.rnd x nn) s = .next t ∧ t.pc = s.pc + 2 ∧
    (∀ k < 8, (t.getV x).getLsbD k = (s.rnd.getLsbD k && nn.getLsbD k)) ∧
    (∀ r, r ≠ x → t.getV r = s.getV r) ∧ ChangesOnly [.v, .pc] s t

/-! ### Index register and memory (spec/42_index_memory.md) -/

/-- R160: LD I, nnn. -/
def Obligations.LoadIndexSetsI : Prop :=
  (∀ nnn : Imm12, decode (BitVec.ofNat 16 (0xA000 + nnn.toNat)) = .ok (.ldI nnn)) ∧
  ∀ (nnn : Imm12) (s : State), ∃ t, exec (.ldI nnn) s = .next t ∧ t.pc = s.pc + 2 ∧ t.i.toNat = nnn.toNat ∧
    ChangesOnly [.i, .pc] s t

/-- R161: ADD I, Vx wraps at 16 bits and writes no flag. -/
def Obligations.AddToIndexWrapsAtSixteenBits : Prop :=
  (∀ x : Reg, decode (BitVec.ofNat 16 (0xF01E + 0x100 * x.val)) = .ok (.addI x)) ∧
  ∀ (x : Reg) (s : State), ∃ t, exec (.addI x) s = .next t ∧ t.pc = s.pc + 2 ∧
    t.i.toNat = (s.i.toNat + (s.getV x).toNat) % 65536 ∧ ChangesOnly [.i, .pc] s t

/-- R162: LD F, Vx: I is five times V[x], not reduced to the low nibble. -/
def Obligations.FontAddressIsFiveTimesDigit : Prop :=
  (∀ x : Reg, decode (BitVec.ofNat 16 (0xF029 + 0x100 * x.val)) = .ok (.ldF x)) ∧
  ∀ (x : Reg) (s : State), ∃ t, exec (.ldF x) s = .next t ∧ t.pc = s.pc + 2 ∧
    t.i.toNat = 5 * (s.getV x).toNat ∧ ChangesOnly [.i, .pc] s t

/-- R163: LD B, Vx stores the three decimal digits at I, I+1, I+2, or raises MemoryBounds before any write
(decision D4 of the spec; notes/assumptions/8.md). -/
def Obligations.BcdStoresThreeDigits : Prop :=
  (∀ x : Reg, decode (BitVec.ofNat 16 (0xF033 + 0x100 * x.val)) = .ok (.ldB x)) ∧
  ∀ (x : Reg) (s : State), ∃ t, exec (.ldB x) s = .next t ∧
    if s.i.toNat + 3 > 4096 then FaultTaken .memoryBounds (BitVec.ofNat 16 (0xF033 + 0x100 * x.val)) s.i s t
    else t.pc = s.pc + 2 ∧
      (∀ a, (t.byteAt a).toNat =
        if a = s.i.toNat then (s.getV x).toNat / 100
        else if a = s.i.toNat + 1 then (s.getV x).toNat / 10 % 10
        else if a = s.i.toNat + 2 then (s.getV x).toNat % 10
        else (s.byteAt a).toNat) ∧
      ChangesOnly [.mem, .pc] s t

/-- R164: LD [I], Vx stores V0..Vx at I..I+x and leaves I, or raises MemoryBounds before any write
(decisions D4 and D17 of the spec; notes/assumptions/8.md and 18.md). -/
def Obligations.StoreRegistersWritesBlock : Prop :=
  (∀ x : Reg, decode (BitVec.ofNat 16 (0xF055 + 0x100 * x.val)) = .ok (.storeRegs x)) ∧
  ∀ (x : Reg) (s : State), ∃ t, exec (.storeRegs x) s = .next t ∧
    if s.i.toNat + (x.val + 1) > 4096 then FaultTaken .memoryBounds (BitVec.ofNat 16 (0xF055 + 0x100 * x.val)) s.i s t
    else t.pc = s.pc + 2 ∧
      (∀ r : Reg, r ≤ x → t.byteAt (s.i.toNat + r.val) = s.getV r) ∧
      (∀ a, a < s.i.toNat ∨ s.i.toNat + x.val < a → t.byteAt a = s.byteAt a) ∧
      ChangesOnly [.mem, .pc] s t

/-- R165: LD Vx, [I] loads V0..Vx from I..I+x and leaves I and the registers above x, or raises MemoryBounds before any
write (decisions D4 and D17 of the spec; notes/assumptions/8.md and 18.md). -/
def Obligations.LoadRegistersReadsBlock : Prop :=
  (∀ x : Reg, decode (BitVec.ofNat 16 (0xF065 + 0x100 * x.val)) = .ok (.loadRegs x)) ∧
  ∀ (x : Reg) (s : State), ∃ t, exec (.loadRegs x) s = .next t ∧
    if s.i.toNat + (x.val + 1) > 4096 then FaultTaken .memoryBounds (BitVec.ofNat 16 (0xF065 + 0x100 * x.val)) s.i s t
    else t.pc = s.pc + 2 ∧
      (∀ r : Reg, t.getV r = if r ≤ x then s.byteAt (s.i.toNat + r.val) else s.getV r) ∧
      ChangesOnly [.v, .pc] s t

/-! ### Framebuffer (spec/43_display.md) -/

/-- R181: CLS clears every pixel and changes nothing else. -/
def Obligations.ClearScreenClearsEveryPixel : Prop :=
  decode 0x00E0 = .ok .cls ∧
  ∀ s : State, ∃ t, exec .cls s = .next t ∧ t.pc = s.pc + 2 ∧ (∀ px py, t.pixel px py = false) ∧ ChangesOnly [.fb, .pc] s t

/-- R182 (and R180): DRW toggles exactly the pixels under set bits of the sprite, wrapped, from the origin that the old V[x] and V[y]
give; VF is 1 iff one of them was set, else 0; n = 0 cannot fault; a sprite past the end of MEM raises MemoryBounds and draws nothing
(decisions D4 and D12 of the spec; notes/assumptions/8.md and 14.md). -/
def Obligations.DrawXorsSpriteAndFlagsCollision : Prop :=
  (∀ (x y : Reg) (n : Nibble),
    decode (BitVec.ofNat 16 (0xD000 + 0x100 * x.val + 0x10 * y.val + n.toNat)) = .ok (.drw x y n)) ∧
  ∀ (x y : Reg) (n : Nibble) (s : State), ∃ t, exec (.drw x y n) s = .next t ∧
    if n.toNat > 0 ∧ s.i.toNat + n.toNat > 4096 then
      FaultTaken .memoryBounds (BitVec.ofNat 16 (0xD000 + 0x100 * x.val + 0x10 * y.val + n.toNat)) s.i s t
    else
      let covers := spriteCovers s ((s.getV x).toNat % 64) ((s.getV y).toNat % 32) n.toNat
      t.pc = s.pc + 2 ∧
      (∀ px py, t.pixel px py = (s.pixel px py != covers px py)) ∧
      ((t.getV 15 = 1 ∧ ∃ px py, covers px py = true ∧ s.pixel px py = true) ∨
        (t.getV 15 = 0 ∧ ∀ px py, covers px py = true → s.pixel px py = false)) ∧
      (∀ r, r ≠ 15 → t.getV r = s.getV r) ∧
      ChangesOnly [.v, .fb, .pc] s t

/-- R183: drawing the same sprite at the same origin twice, with no write to FB between, restores FB, and the second draw sets VF = 1 iff
some pixel under a set bit was clear before the first. `u` is any state at the second draw that still shows the first draw's pixels. -/
def Obligations.DrawingTwiceRestoresPixels : Prop :=
  ∀ (x y x' y' : Reg) (n : Nibble) (s : State), s.i.toNat + n.toNat ≤ 4096 →
    ∃ t, exec (.drw x y n) s = .next t ∧
      ∀ u : State, (∀ px py, u.pixel px py = t.pixel px py) → u.i = s.i → (∀ a, u.byteAt a = s.byteAt a) →
        (u.getV x').toNat % 64 = (s.getV x).toNat % 64 → (u.getV y').toNat % 32 = (s.getV y).toNat % 32 →
        ∃ v, exec (.drw x' y' n) u = .next v ∧ (∀ px py, v.pixel px py = s.pixel px py) ∧
          (v.getV 15 = 1 ↔
            ∃ px py, spriteCovers s ((s.getV x).toNat % 64) ((s.getV y).toNat % 32) n.toNat px py = true ∧ s.pixel px py = false)

/-! ### Keys and timers (spec/44_timers_keys.md, spec/60_exceptions.md) -/

/-- R200, R201: SKP Vx skips when key V[x] is pressed, SKNP Vx when it is not; V[x] of 16 or more raises InvalidKeyIndex
(decision D5 of the spec; notes/assumptions/9.md). -/
def Obligations.SkipOnKey : Prop :=
  (∀ x : Reg, decode (BitVec.ofNat 16 (0xE09E + 0x100 * x.val)) = .ok (.skp x) ∧
    decode (BitVec.ofNat 16 (0xE0A1 + 0x100 * x.val)) = .ok (.sknp x)) ∧
  ∀ (x : Reg) (s : State),
    (∃ t, exec (.skp x) s = .next t ∧
      if h : (s.getV x).toNat < 16 then
        t.pc = (if s.keyDown ⟨(s.getV x).toNat, h⟩ then s.pc + 4 else s.pc + 2) ∧ ChangesOnly [.pc] s t
      else FaultTaken .invalidKeyIndex (BitVec.ofNat 16 (0xE09E + 0x100 * x.val)) ((s.getV x).setWidth 16) s t) ∧
    (∃ t, exec (.sknp x) s = .next t ∧
      if h : (s.getV x).toNat < 16 then
        t.pc = (if s.keyDown ⟨(s.getV x).toNat, h⟩ then s.pc + 2 else s.pc + 4) ∧ ChangesOnly [.pc] s t
      else FaultTaken .invalidKeyIndex (BitVec.ofNat 16 (0xE0A1 + 0x100 * x.val)) ((s.getV x).setWidth 16) s t)

/-- R202: LD Vx, DT loads DT, and reads it before the timer step of the same cycle. -/
def Obligations.LoadDelayTimerReadsDt : Prop :=
  (∀ x : Reg, decode (BitVec.ofNat 16 (0xF007 + 0x100 * x.val)) = .ok (.ldVxDt x)) ∧
  ∀ (x : Reg) (s : State), ∃ t, exec (.ldVxDt x) s = .next t ∧ t.pc = s.pc + 2 ∧
    (∀ r, t.getV r = if r = x then s.dt else s.getV r) ∧ ChangesOnly [.v, .pc] s t ∧
    (s.Running → decode s.fetchWord = .ok (.ldVxDt x) → ∃ u, step s = .next u ∧ u.getV x = s.dt ∧
      u.dt.toNat = if s.due then s.dt.toNat - 1 else s.dt.toNat)

/-- R203: LD Vx, K takes the lowest pressed key; with none pressed PC is again at the instruction and nothing changes; the
cycle that waits still takes its timer step. -/
def Obligations.KeyWaitTakesLowestKey : Prop :=
  (∀ x : Reg, decode (BitVec.ofNat 16 (0xF00A + 0x100 * x.val)) = .ok (.ldVxK x)) ∧
  ∀ (x : Reg) (s : State), ∃ t, exec (.ldVxK x) s = .next t ∧
    ((∃ k : Reg, s.keyDown k = true ∧ (∀ j < k, s.keyDown j = false) ∧ t.pc = s.pc + 2 ∧
        (∀ r, (t.getV r).toNat = if r = x then k.val else (s.getV r).toNat) ∧ ChangesOnly [.v, .pc] s t) ∨
      ((∀ k : Reg, s.keyDown k = false) ∧ ChangesOnly [] s t)) ∧
    (s.Running → decode s.fetchWord = .ok (.ldVxK x) → (∀ k : Reg, s.keyDown k = false) → ∃ u, step s = .next u ∧
      u.dt.toNat = (if s.due then s.dt.toNat - 1 else s.dt.toNat) ∧ u.st.toNat = (if s.due then s.st.toNat - 1 else s.st.toNat) ∧
      ChangesOnly [.dt, .st, .inputs] s u)

/-- R204, R205: LD DT, Vx and LD ST, Vx store the register, and the timer step of the same cycle comes after the store. The sound output
follows ST. -/
def Obligations.SetTimersThenTimerStep : Prop :=
  (∀ x : Reg, decode (BitVec.ofNat 16 (0xF015 + 0x100 * x.val)) = .ok (.ldDtVx x) ∧
    decode (BitVec.ofNat 16 (0xF018 + 0x100 * x.val)) = .ok (.ldStVx x)) ∧
  ∀ (x : Reg) (s : State),
    (∃ t, exec (.ldDtVx x) s = .next t ∧ t.pc = s.pc + 2 ∧ t.dt = s.getV x ∧ ChangesOnly [.dt, .pc] s t) ∧
    (∃ t, exec (.ldStVx x) s = .next t ∧ t.pc = s.pc + 2 ∧ t.st = s.getV x ∧ (soundOn t = true ↔ s.getV x ≠ 0) ∧
      ChangesOnly [.st, .pc] s t) ∧
    (s.Running → decode s.fetchWord = .ok (.ldDtVx x) → ∃ u, step s = .next u ∧
      u.dt.toNat = if s.due then (s.getV x).toNat - 1 else (s.getV x).toNat) ∧
    (s.Running → decode s.fetchWord = .ok (.ldStVx x) → ∃ u, step s = .next u ∧
      u.st.toNat = if s.due then (s.getV x).toNat - 1 else (s.getV x).toNat)

/-- R230: a cycle that executed a word, an instruction or a no-op word, without a fault ends with the timer step iff due: both timers, each
down by 1 and never below 0, and nothing else of the core (the model then draws the inputs of the next cycle). -/
def Obligations.TimerStepEndsTheCycle : Prop :=
  ∀ s t : State, s.Running → execWord s.fetchWord s = .next t → t.fault = none →
    ∃ u, step s = .next u ∧
      u.dt.toNat = (if s.due then t.dt.toNat - 1 else t.dt.toNat) ∧
      u.st.toNat = (if s.due then t.st.toNat - 1 else t.st.toNat) ∧
      ChangesOnly [.dt, .st, .inputs] t u

/-! ### Decode and encode (spec/30_encoding.md) -/

/-- Decoding the word of a well-formed instruction gives the instruction, with every operand. -/
def Obligations.DecodeOfEncode : Prop := ∀ i : Instr, i.wf = true → decode (encode i) = .ok i

/-- A word that decodes to an instruction is that instruction's word, and matches its row of R86 under the row's mask: no bit of a word
is ignored, so FAULT's word (R223), which the model takes from the encoder, is the word fetched. -/
def Obligations.EncodeOfDecode : Prop :=
  ∀ (w : Word) (i : Instr), decode w = .ok i → i.wf = true ∧ encode i = w ∧ w &&& (opcodeRow i).1 = (opcodeRow i).2

/-- A word of every group 0 to F, and a no-op word of groups 5, 8 and F, written from the patterns of R86 and R87, decode to what they stand
for. That 0123 is SYS, a no-op, and 5121 a no-op word is decision D6 of the spec (notes/assumptions/10.md). -/
def Obligations.SampleWordsDecode : Prop :=
  decode 0x00E0 = .ok .cls ∧ decode 0x0123 = .ok (.sys 0x123) ∧ decode 0x1234 = .ok (.jp 0x234) ∧ decode 0x2FED = .ok (.call 0xFED) ∧
  decode 0x3105 = .ok (.seImm 1 0x05) ∧ decode 0x4AFF = .ok (.sneImm 10 0xFF) ∧ decode 0x5120 = .ok (.seReg 1 2) ∧
  decode 0x5121 = .error .group5 ∧ decode 0x6A7E = .ok (.ldImm 10 0x7E) ∧ decode 0x7F01 = .ok (.addImm 15 0x01) ∧
  decode 0x812E = .ok (.shl 1 2) ∧ decode 0x8008 = .error .group8 ∧ decode 0x9AB0 = .ok (.sneReg 10 11) ∧
  decode 0xA123 = .ok (.ldI 0x123) ∧ decode 0xB300 = .ok (.jpV0 0x300) ∧ decode 0xC10F = .ok (.rnd 1 0x0F) ∧
  decode 0xD12F = .ok (.drw 1 2 15) ∧ decode 0xE5A1 = .ok (.sknp 5) ∧ decode 0xFF65 = .ok (.loadRegs 15) ∧
  decode 0xFF1F = .error .groupF

/-- R87: the no-op words are exactly those of the table (SYS among them; groups 0, 5 and 9 are decision D6 of the spec,
notes/assumptions/10.md); one changes nothing but PC, and its cycle still takes the end of a cycle, with the timer step. -/
def Obligations.NoOpWordsOnlyAdvancePc : Prop :=
  (∀ w : Word, isNoOpWord w = true ↔ (∃ nnn, decode w = .ok (.sys nnn)) ∨ ∃ g, decode w = .error g) ∧
  (∀ (nnn : Imm12) (s : State), ∃ t, exec (.sys nnn) s = .next t ∧ t.pc = s.pc + 2 ∧ ChangesOnly [.pc] s t) ∧
  (∀ (w : Word) (s : State), isNoOpWord w = true → ∃ t, execWord w s = .next t ∧ t.pc = s.pc + 2 ∧ ChangesOnly [.pc] s t) ∧
  (∀ s : State, s.Running → isNoOpWord s.fetchWord = true → ∃ t, step s = .next t ∧ t.pc = s.pc + 2 ∧
    t.dt.toNat = (if s.due then s.dt.toNat - 1 else s.dt.toNat) ∧ t.st.toNat = (if s.due then s.st.toNat - 1 else s.st.toNat) ∧
    ChangesOnly [.pc, .dt, .st, .inputs] s t)

/-! ### The cycle (spec/30_encoding.md R83, spec/60_exceptions.md) -/

/-- R83, R84: a running core executes the instruction that the two bytes at PC, the first the high byte, decode to; the end of the cycle
follows unless a fault was raised (decision D3 of the spec; notes/assumptions/29.md). -/
def Obligations.StepRunsDecodedInstruction : Prop :=
  ∀ (i : Instr) (s : State), s.Running →
    decode (BitVec.ofNat 16 ((s.byteAt s.pc.toNat).toNat * 256 + (s.byteAt (s.pc.toNat + 1)).toNat)) = .ok i →
    ∃ t, exec i s = .next t ∧ step s = .next (if t.fault = none then t.endCycle else t)

/-- The word that withFetchWord places is the word the next step runs, in every state: the model's own way to place an instruction
(notes/assumptions/24.md). -/
def Obligations.PlacedWordRuns : Prop :=
  ∀ (w : Nat) (s : State), w < 65536 → ∃ t, execWord (BitVec.ofNat 16 w) (s.withFetchWord 16 w) = .next t ∧
    step (s.withFetchWord 16 w) = .next (if t.fault = none then t.endCycle else t) ∧
    (s.Running → ChangesOnly [.mem] s (s.withFetchWord 16 w))

/-- R222: for every instruction and state, exec answers a next state whose FAULT is as the table of causes says, with the code of R222
(decisions D2, D4 and D5 of the spec; notes/assumptions/7.md, 8.md and 9.md). -/
def Obligations.FaultsAreExactlyTheTable : Prop :=
  Cause.stackUnderflow.code = 1 ∧ Cause.stackOverflow.code = 2 ∧ Cause.memoryBounds.code = 3 ∧ Cause.invalidKeyIndex.code = 4 ∧
  (∀ (i : Instr) (s : State), s.fault = none → ∃ t, exec i s = .next t ∧
    t.fault = (raisesOn i s).map fun e => { cause := e.cause, pc := s.pc, word := encode i, info := e.info }) ∧
  (∀ (g : NoOpGroup) (s : State), ∃ t, execNoOpWord g s = .next t ∧ t.fault = s.fault)

/-- R223: a fault is precise: in the state after the faulting cycle only FAULT differs, and it records PC, the word at PC, and the cause and
info that the word's instruction raises (decision D3 of the spec; notes/assumptions/29.md). -/
def Obligations.FaultEntryIsPrecise : Prop :=
  ∀ (s t : State) (r : FaultRecord), s.fault = none → step s = .next t → t.fault = some r →
    r.pc = s.pc ∧ r.word = s.fetchWord ∧ t = { s with fault := some r } ∧
    ∃ i, decode s.fetchWord = .ok i ∧ raisesOn i s = some ⟨r.cause, r.info⟩

/-- R224: a fault stops the core until Reset: a cycle changes nothing; through any cycles and host operations but Reset, FAULT keeps its
record, the status port shows it, and only MEM (loadRom), KEY (setKey) and the model's inputs can change; and Reset empties FAULT
(decision D3 of the spec; notes/assumptions/29.md). -/
def Obligations.OnlyResetLeavesAFault : Prop :=
  ∀ (es : List Event) (s : State) (r : FaultRecord), s.fault = some r →
    step s = .next s ∧ (∃ t, event (.host .reset) s = .next t ∧ t.fault = none) ∧
    ((∀ e ∈ es, e ≠ .host .reset) →
      ∃ t, events es s = .next t ∧ t.fault = some r ∧ (portStatus t).fault = some r ∧ ChangesOnly [.mem, .key, .inputs] s t)

/-- R221, for every value of the parameters (decision D8 of the spec asks it of TIMERS_TICK_WHEN_EXHAUSTED; notes/assumptions/12.md): a cycle
with PC above PC_LIMIT records no fault and changes nothing, but that with TIMERS_TICK_WHEN_EXHAUSTED = true both timers take the timer
step iff due (and the model draws new inputs). Through any cycles and host operations but Reset the core stays exhausted, with PC and the
rest of the core as they were but for MEM (loadRom) and KEY (setKey), and both timers have taken the same number of timer steps, at most one
a cycle, and none with the default false. With this hardware's parameters such a cycle, PC > 0x0FFE, changes nothing at all. -/
def Obligations.ExhaustionLastsUntilReset : Prop :=
  (∀ (c : Config) (es : List Event) (s : State), s.fault = none → c.pcLimit.toNat < s.pc.toNat →
    (∃ t, cycle s c = .next t ∧
      t.dt.toNat = (if c.timersTickWhenExhausted && s.due then s.dt.toNat - 1 else s.dt.toNat) ∧
      t.st.toNat = (if c.timersTickWhenExhausted && s.due then s.st.toNat - 1 else s.st.toNat) ∧
      ChangesOnly [.dt, .st, .inputs] s t ∧ (c.timersTickWhenExhausted = false → t = s)) ∧
    ((∀ e ∈ es, e ≠ .host .reset) → ∃ t k, events es s c = .next t ∧ t.fault = none ∧ (portStatus t c).exhausted = true ∧
      k ≤ cycleCount es ∧ (c.timersTickWhenExhausted = false → k = 0) ∧
      t.dt.toNat = s.dt.toNat - k ∧ t.st.toNat = s.st.toNat - k ∧ ChangesOnly [.dt, .st, .mem, .key, .inputs] s t)) ∧
  ∀ s : State, s.fault = none → 0x0FFE < s.pc.toNat → step s = .next s

/-! ### Whole-machine rules -/

/-- R26: PC after every instruction is as the table says, after every no-op word a + 2, and in a cycle that does not fetch unchanged; and no
fetch takes PC past 0x10FE while every return address is at most 0x1000, as StepKeepsInvariant says (an inference of the spec: "the
largest value PC can reach is 0x10FE"). -/
def Obligations.PcFollowsTheTable : Prop :=
  (∀ (i : Instr) (s : State), ∃ t, exec i s = .next t ∧ t.pc = pcAfter i s) ∧
  (∀ (g : NoOpGroup) (s : State), ∃ t, execNoOpWord g s = .next t ∧ t.pc = s.pc + 2) ∧
  (∀ s : State, s.fault ≠ none ∨ 0x0FFE < s.pc.toNat → ∃ t, step s = .next t ∧ t.pc = s.pc) ∧
  (∀ (i : Instr) (s : State), s.Running → (∀ a ∈ s.stack, a.toNat ≤ 0x1000) → (pcAfter i s).toNat ≤ 0x10FE)

/-- Every instruction changes only the parts of the state its rule names (R28, R33, R34, R37 for STACK, KEY, FB and FAULT). -/
def Obligations.InstructionsChangeOnlyTheirParts : Prop :=
  ∀ (i : Instr) (s t : State), exec i s = .next t → ChangesOnly (partsOf i) s t

/-- R22, R23: an instruction writes no general register but those the lists name; VF as a flag only for 8xy4–8xy7, 8xyE and Dxyn. -/
def Obligations.OnlyListedWritersWriteRegisters : Prop :=
  ∀ (i : Instr) (s t : State) (r : Reg), exec i s = .next t → writesReg i r = false → t.getV r = s.getV r

/-- Only Fx33 and Fx55 write MEM in a cycle, and only in their range at I. -/
def Obligations.OnlyBcdAndStoreWriteMemory : Prop :=
  ∀ (s t : State) (a : Nat), s.Running → step s = .next t → t.byteAt a ≠ s.byteAt a →
    ∃ x : Reg, (decode s.fetchWord = .ok (.ldB x) ∧ s.i.toNat ≤ a ∧ a < s.i.toNat + 3) ∨
      (decode s.fetchWord = .ok (.storeRegs x) ∧ s.i.toNat ≤ a ∧ a ≤ s.i.toNat + x.val)

/-- R235, R230: no instruction but Cxnn reads rnd, and none reads due: with other inputs exec answers the same state but for those inputs. -/
def Obligations.InputsReachOnlyRndAndTheTimers : Prop :=
  ∀ (i : Instr) (s t : State) (d : Bool) (b : Byte), exec i s = .next t →
    exec i { s with due := d } = .next { t with due := d } ∧
    ((∀ x nn, i ≠ .rnd x nn) → exec i { s with due := d, rnd := b } = .next { t with due := d, rnd := b })

/-- The key latch is read-only within the core (R33): no cycle writes it. -/
def Obligations.NoCycleWritesTheKeyLatch : Prop :=
  ∀ s t : State, step s = .next t → ∀ k, t.keyDown k = s.keyDown k

/-- Every step keeps the invariant, from every state that has it, whatever the inputs. The invariant is the model's: R28's bound on STACK,
R26's on PC, the canonical form of MEM (notes/assumptions/23.md), and what FAULT can record (R222, R223). -/
def Obligations.StepKeepsInvariant : Prop :=
  ∀ s t : State, s.Inv → step s = .next t → t.Inv

/-- Every event, a cycle with any inputs or any host operation, keeps the invariant, and every list of events answers a next state. -/
def Obligations.EventsKeepInvariant : Prop :=
  ∀ (es : List Event) (s : State), s.Inv → ∃ t, events es s = .next t ∧ t.Inv

/-- The state after reset has the invariant. -/
def Obligations.ResetHasInvariant : Prop := State.reset.Inv

/-- The model's own form of MEM (notes/assumptions/23.md): the canonical form means equal reads make equal memories. -/
def Obligations.CanonicalMemoriesAreDeterminedByReads : Prop :=
  ∀ m m' : Memory, m.wf → m'.wf → (∀ a < 4096, m.read a = m'.read a) → m = m'

/-! ### Reset and the host ports (spec/70_reset_and_hazards.md, spec/20_memory.md, spec/60_exceptions.md) -/

/-- R260, R261, R52: Reset gives every piece of state the value the spec states, from any state, and the state at power-on is the same but
for the model's inputs (decisions D3 and D13 of the spec; notes/assumptions/15.md and 27.md). The font's bytes are the spec's default of
FONT (decision D15; notes/assumptions/17.md). -/
def Obligations.ResetGivesTheStatedValues : Prop :=
  ∀ s : State, ∃ t, hostOp .reset s = (t, .done) ∧ ChangesOnly [.inputs] State.reset t ∧
    ChangesOnly [.v, .i, .pc, .stack, .dt, .st, .key, .fb, .mem, .fault] s t ∧
    (∀ r, t.getV r = 0) ∧ t.i = 0 ∧ t.pc = 0x200 ∧ t.stack = [] ∧ t.dt = 0 ∧ t.st = 0 ∧ (∀ k, t.keyDown k = false) ∧
    (∀ px py, t.pixel px py = false) ∧ t.fault = none ∧
    (∀ a, t.byteAt a = if a < 0x50 then fontBytes.getD a 0 else 0)

/-- R65: loadRom refuses more than 0xE00 bytes and then changes no state; else 0x200–0xFFF is the ROM and zeros, and nothing else changes,
FAULT included (decision D19 of the spec; notes/assumptions/20.md). -/
def Obligations.LoadRomWritesTheProgramRegion : Prop :=
  ∀ (bytes : List Byte) (s : State),
    if bytes.length > 0xE00 then hostOp (.loadRom bytes) s = (s, .error .romTooLarge)
    else ∃ t, hostOp (.loadRom bytes) s = (t, .done) ∧ ChangesOnly [.mem] s t ∧
      ∀ a, t.byteAt a = if a < 0x200 then s.byteAt a else bytes.getD (a - 0x200) 0

/-- The hex-text loader (R66; the white space is the model's reading of Unicode's, notes/assumptions/21.md): the digits left after white
space is taken out are bytes, high nibble first, for loadRom; an odd count or another character changes no state. -/
def Obligations.HexTextFeedsLoadRom : Prop :=
  ∀ (text : List Char) (s : State),
    if (text.filter fun c => !isWhite c).length % 2 = 0 ∧ ∀ c ∈ text, isWhite c = true ∨ (hexDigit c).isSome = true then
      ∃ bytes : List Byte, hostOp (.loadRomFromHexText text) s = hostOp (.loadRom bytes) s ∧
        2 * bytes.length = (text.filter fun c => !isWhite c).length ∧
        ∀ k < bytes.length, ∃ h l : Char, (text.filter fun c => !isWhite c)[2 * k]? = some h ∧
          (text.filter fun c => !isWhite c)[2 * k + 1]? = some l ∧
          (bytes.getD k 0).toNat = 16 * (hexDigit h).getD 0 + (hexDigit l).getD 0
    else hostOp (.loadRomFromHexText text) s = (s, .error .invalidHexEncoding)

/-- R234: setKey and isKeyPressed, and their failure on an index outside 0..15. -/
def Obligations.KeypadPortsSetAndReadOneKey : Prop :=
  ∀ (k : Int) (b : Bool) (s : State),
    if h : 0 ≤ k ∧ k ≤ 15 then
      (∃ t, hostOp (.setKey k b) s = (t, .done) ∧ ChangesOnly [.key] s t ∧
        ∀ j : Key, t.keyDown j = if (j.val : Int) = k then b else s.keyDown j) ∧
      hostOp (.isKeyPressed k) s = (s, .bool (s.keyDown ⟨k.toNat, show k.toNat < 16 by omega⟩))
    else hostOp (.setKey k b) s = (s, .error .invalidKeyIndex) ∧ hostOp (.isKeyPressed k) s = (s, .error .invalidKeyIndex)

/-- R184: pixelAt answers the pixel and changes no state; coordinates outside 64×32 fail with OutOfBounds. -/
def Obligations.PixelPortReadsTheFramebuffer : Prop :=
  ∀ s : State,
    (∀ (px : Column) (py : Row), hostOp (.pixelAt px.val py.val) s = (s, .bool (s.pixel px py))) ∧
    (∀ x y : Int, x < 0 ∨ 63 < x ∨ y < 0 ∨ 31 < y → hostOp (.pixelAt x y) s = (s, .error .outOfBounds))

/-- R67, R233, R232: the memory, timer and status ports answer the byte, the timers and the status, change no state, and memAt fails outside
MEM (decisions D21 and D3 of the spec; notes/assumptions/22.md and 29.md); the sound output is on exactly when ST ≠ 0. -/
def Obligations.ReadPortsChangeNothing : Prop :=
  ∀ s : State,
    (soundOn s = true ↔ s.st ≠ 0) ∧
    (∀ a : Int, hostOp (.memAt a) s = (s, if 0 ≤ a ∧ a ≤ 0xFFF then .byte (s.byteAt a.toNat) else .error .outOfBounds)) ∧
    hostOp .delayTimer s = (s, .byte s.dt) ∧ hostOp .soundTimer s = (s, .byte s.st) ∧
    hostOp .status s = (s, .status { pc := s.pc, exhausted := decide (0x0FFE < s.pc.toNat), fault := s.fault })

/-! ### Runs -/

/-- R203, R267: while no key is pressed, a core at Fx0A stays there however many cycles run, with nothing but the timers (and the model's
inputs) changing. -/
def Obligations.KeyWaitHoldsWithoutAKey : Prop :=
  ∀ (n : Nat) (x : Reg) (s : State), s.Running → decode s.fetchWord = .ok (.ldVxK x) → (∀ k, s.keyDown k = false) →
    ∃ t, events (List.replicate n .cycle) s = .next t ∧ ChangesOnly [.dt, .st, .inputs] s t

/-- R269 (3): at a self-jump every later cycle repeats it, with only the timers (and the model's inputs) changing (decision D23 of the spec). -/
def Obligations.SelfJumpRepeatsForever : Prop :=
  ∀ (n : Nat) (s : State), endOfRun s = some .selfJump →
    ∃ t, events (List.replicate n .cycle) s = .next t ∧ endOfRun t = some .selfJump ∧ ChangesOnly [.dt, .st, .inputs] s t

/-- R269: the end that runEnd gives is the first boundary at which one of the four ends holds, with the first of the four that holds there,
and it gives none exactly where none holds at any boundary the events reach. The definition of the end is decision D23 of the spec; that the
ends are looked for around each host operation of a boundary too is the model's choice (notes/assumptions/32.md). -/
def Obligations.RunEndsAtTheFirstOfTheFour : Prop :=
  ∀ (n : Nat) (es : List Event) (s : State),
    match runEnd n es s with
    | some e => ∃ k ≤ es.length, events (es.take k) s = .next e.state ∧ e.cycles = cycleCount (es.take k) ∧ e.Holds n ∧
        ∀ j < k, RunGoesOn n (es.take j) s
    | none => ∀ j ≤ es.length, RunGoesOn n (es.take j) s
end

