-- ==== Sys2Proof/Laws/Decode.lean ====
section
/-! SUPPORT. The fields of a packed word, and the fields a masked word fixes (spec/30_encoding.md R80, R86). -/

namespace Sys2Proof

/-! The bits of a word packed from fields. -/

/-- A register number has no bit above bit 3. -/
theorem reg_testBit {x : Reg} {k : Nat} (h : 4 ≤ k) : x.val.testBit k = false :=
  Nat.testBit_lt_two_pow (Nat.lt_of_lt_of_le x.isLt (Nat.pow_le_pow_right (n := 2) (by decide) h))

theorem getLsbD_packNNN (op : BitVec 4) (nnn : Imm12) (k : Nat) (hk : k < 16) :
    (packNNN op nnn).getLsbD k = if k < 12 then nnn.getLsbD k else op.getLsbD (k - 12) := by
  simp only [packNNN, BitVec.getLsbD_or, BitVec.getLsbD_shiftLeft, BitVec.getLsbD_setWidth]
  by_cases h : k < 12
  · simp [h, hk]
  · simp [h, hk, show k - 12 < 16 by omega, BitVec.getLsbD_of_ge nnn k (by omega)]

theorem getLsbD_packXNN (op : BitVec 4) (x : Reg) (nn : Byte) (k : Nat) (hk : k < 16) :
    (packXNN op x nn).getLsbD k =
      if k < 8 then nn.getLsbD k else if k < 12 then x.val.testBit (k - 8) else op.getLsbD (k - 12) := by
  simp only [packXNN, BitVec.getLsbD_or, BitVec.getLsbD_shiftLeft, BitVec.getLsbD_setWidth, BitVec.getLsbD_ofNat]
  by_cases h : k < 8
  · simp [h, hk, show k < 12 by omega]
  · have hnn : nn.getLsbD k = false := BitVec.getLsbD_of_ge nn k (by omega)
    by_cases h' : k < 12
    · simp [h, h', hk, hnn, show k - 8 < 16 by omega]
    · simp [h, h', hk, hnn, show k - 12 < 16 by omega, reg_testBit (x := x) (show 4 ≤ k - 8 by omega)]

theorem getLsbD_packXYN (op : BitVec 4) (x y : Reg) (n : Nibble) (k : Nat) (hk : k < 16) :
    (packXYN op x y n).getLsbD k =
      if k < 4 then n.getLsbD k else if k < 8 then y.val.testBit (k - 4)
      else if k < 12 then x.val.testBit (k - 8) else op.getLsbD (k - 12) := by
  simp only [packXYN, BitVec.getLsbD_or, BitVec.getLsbD_shiftLeft, BitVec.getLsbD_setWidth, BitVec.getLsbD_ofNat]
  by_cases h : k < 4
  · simp [h, hk, show k < 12 by omega, show k < 8 by omega]
  · have hn : n.getLsbD k = false := BitVec.getLsbD_of_ge n k (by omega)
    by_cases h' : k < 8
    · simp [h, h', hk, hn, show k < 12 by omega, show k - 4 < 16 by omega]
    · have hy := reg_testBit (x := y) (show 4 ≤ k - 4 by omega)
      by_cases h'' : k < 12
      · simp [h, h', h'', hk, hn, hy, show k - 8 < 16 by omega]
      · simp [h, h', h'', hk, hn, hy, show k - 12 < 16 by omega, reg_testBit (x := x) (show 4 ≤ k - 8 by omega)]

theorem getLsbD_fieldX (w : Word) (k : Nat) : (fieldX w).val.testBit k = (decide (k < 4) && w.getLsbD (8 + k)) := by
  rw [← BitVec.getLsbD_extractLsb']
  rfl

theorem getLsbD_fieldY (w : Word) (k : Nat) : (fieldY w).val.testBit k = (decide (k < 4) && w.getLsbD (4 + k)) := by
  rw [← BitVec.getLsbD_extractLsb']
  rfl

/-! A word is its fields. -/

@[simp] theorem fieldOp_packNNN (op : BitVec 4) (nnn : Imm12) : fieldOp (packNNN op nnn) = op := by
  apply BitVec.eq_of_getLsbD_eq
  intro k hk
  simp [fieldOp, getLsbD_packNNN _ _ (12 + k) (by omega), hk]

@[simp] theorem fieldNNN_packNNN (op : BitVec 4) (nnn : Imm12) : fieldNNN (packNNN op nnn) = nnn := by
  apply BitVec.eq_of_getLsbD_eq
  intro k hk
  simp [fieldNNN, getLsbD_packNNN _ _ k (by omega), hk]

@[simp] theorem fieldOp_packXNN (op : BitVec 4) (x : Reg) (nn : Byte) : fieldOp (packXNN op x nn) = op := by
  apply BitVec.eq_of_getLsbD_eq
  intro k hk
  simp [fieldOp, getLsbD_packXNN _ _ _ (12 + k) (by omega), hk, show ¬12 + k < 8 by omega]

@[simp] theorem fieldX_packXNN (op : BitVec 4) (x : Reg) (nn : Byte) : fieldX (packXNN op x nn) = x := by
  apply Fin.ext
  apply Nat.eq_of_testBit_eq
  intro k
  rw [getLsbD_fieldX]
  by_cases hk : k < 4
  · simp [hk, getLsbD_packXNN _ _ _ (8 + k) (by omega), show 8 + k < 12 by omega]
  · simp [hk, reg_testBit (x := x) (show 4 ≤ k by omega)]

@[simp] theorem fieldNN_packXNN (op : BitVec 4) (x : Reg) (nn : Byte) : fieldNN (packXNN op x nn) = nn := by
  apply BitVec.eq_of_getLsbD_eq
  intro k hk
  simp [fieldNN, getLsbD_packXNN _ _ _ k (by omega), hk]

@[simp] theorem fieldOp_packXYN (op : BitVec 4) (x y : Reg) (n : Nibble) : fieldOp (packXYN op x y n) = op := by
  apply BitVec.eq_of_getLsbD_eq
  intro k hk
  simp [fieldOp, getLsbD_packXYN _ _ _ _ (12 + k) (by omega), hk, show ¬12 + k < 8 by omega, show ¬12 + k < 4 by omega]

@[simp] theorem fieldX_packXYN (op : BitVec 4) (x y : Reg) (n : Nibble) : fieldX (packXYN op x y n) = x := by
  apply Fin.ext
  apply Nat.eq_of_testBit_eq
  intro k
  rw [getLsbD_fieldX]
  by_cases hk : k < 4
  · simp [hk, getLsbD_packXYN _ _ _ _ (8 + k) (by omega), show 8 + k < 12 by omega, show ¬8 + k < 4 by omega]
  · simp [hk, reg_testBit (x := x) (show 4 ≤ k by omega)]

@[simp] theorem fieldY_packXYN (op : BitVec 4) (x y : Reg) (n : Nibble) : fieldY (packXYN op x y n) = y := by
  apply Fin.ext
  apply Nat.eq_of_testBit_eq
  intro k
  rw [getLsbD_fieldY]
  by_cases hk : k < 4
  · simp [hk, getLsbD_packXYN _ _ _ _ (4 + k) (by omega), show 4 + k < 8 by omega]
  · simp [hk, reg_testBit (x := y) (show 4 ≤ k by omega)]

@[simp] theorem fieldN_packXYN (op : BitVec 4) (x y : Reg) (n : Nibble) : fieldN (packXYN op x y n) = n := by
  apply BitVec.eq_of_getLsbD_eq
  intro k hk
  simp [fieldN, getLsbD_packXYN _ _ _ _ k (by omega), hk]

theorem packNNN_fields (w : Word) : packNNN (fieldOp w) (fieldNNN w) = w := by
  apply BitVec.eq_of_getLsbD_eq
  intro k hk
  rw [getLsbD_packNNN _ _ _ hk]
  by_cases h : k < 12
  · simp [h, fieldNNN]
  · simp [h, fieldOp, show k - 12 < 4 by omega, show 12 + (k - 12) = k by omega]

theorem packXNN_fields (w : Word) : packXNN (fieldOp w) (fieldX w) (fieldNN w) = w := by
  apply BitVec.eq_of_getLsbD_eq
  intro k hk
  rw [getLsbD_packXNN _ _ _ _ hk, getLsbD_fieldX]
  by_cases h : k < 8
  · simp [h, fieldNN]
  · by_cases h' : k < 12
    · simp [h, h', show k - 8 < 4 by omega, show 8 + (k - 8) = k by omega]
    · simp [h, h', fieldOp, show k - 12 < 4 by omega, show 12 + (k - 12) = k by omega]

theorem packXYN_fields (w : Word) : packXYN (fieldOp w) (fieldX w) (fieldY w) (fieldN w) = w := by
  apply BitVec.eq_of_getLsbD_eq
  intro k hk
  rw [getLsbD_packXYN _ _ _ _ _ hk, getLsbD_fieldX, getLsbD_fieldY]
  by_cases h : k < 4
  · simp [h, fieldN]
  · by_cases h' : k < 8
    · simp [h, h', show k - 4 < 4 by omega, show 4 + (k - 4) = k by omega]
    · by_cases h'' : k < 12
      · simp [h, h', h'', show k - 8 < 4 by omega, show 8 + (k - 8) = k by omega]
      · simp [h, h', h'', fieldOp, show k - 12 < 4 by omega, show 12 + (k - 12) = k by omega]

/-! A packed word as a number: the fields at their places (R80). -/

theorem toNat_shiftLeft_or {w : Nat} (a b : BitVec w) (k : Nat) (hb : b.toNat < 2 ^ k) (ha : a.toNat * 2 ^ k < 2 ^ w) :
    (a <<< k ||| b).toNat = a.toNat * 2 ^ k + b.toNat := by
  rw [BitVec.toNat_or, BitVec.toNat_shiftLeft, Nat.shiftLeft_eq, Nat.mod_eq_of_lt ha, ← Nat.shiftLeft_eq,
    Nat.shiftLeft_add_eq_or_of_lt hb]

theorem packNNN_eq_ofNat (op : BitVec 4) (nnn : Imm12) :
    packNNN op nnn = BitVec.ofNat 16 (0x1000 * op.toNat + nnn.toNat) := by
  apply BitVec.eq_of_toNat_eq
  have ho := op.isLt
  have hn := nnn.isLt
  unfold packNNN
  rw [toNat_shiftLeft_or _ _ _ (by simp; omega) (by simp; omega)]
  simp; omega

theorem packXNN_eq_ofNat (op : BitVec 4) (x : Reg) (nn : Byte) :
    packXNN op x nn = BitVec.ofNat 16 (0x1000 * op.toNat + 0x100 * x.val + nn.toNat) := by
  apply BitVec.eq_of_toNat_eq
  have ho := op.isLt
  have hn := nn.isLt
  have hx : x.val < 16 := x.isLt
  have hlow : (BitVec.ofNat 16 x.val <<< 8 ||| nn.setWidth 16).toNat = x.val * 256 + nn.toNat := by
    rw [toNat_shiftLeft_or _ _ _ (by simp; omega) (by simp; omega)]
    simp; omega
  unfold packXNN
  rw [BitVec.or_assoc, toNat_shiftLeft_or _ _ _ (by rw [hlow]; omega) (by simp; omega), hlow]
  simp; omega

theorem packXYN_eq_ofNat (op : BitVec 4) (x y : Reg) (n : Nibble) :
    packXYN op x y n = BitVec.ofNat 16 (0x1000 * op.toNat + 0x100 * x.val + 0x10 * y.val + n.toNat) := by
  apply BitVec.eq_of_toNat_eq
  have ho := op.isLt
  have hn := n.isLt
  have hx : x.val < 16 := x.isLt
  have hy : y.val < 16 := y.isLt
  have hlow : (BitVec.ofNat 16 y.val <<< 4 ||| n.setWidth 16).toNat = y.val * 16 + n.toNat := by
    rw [toNat_shiftLeft_or _ _ _ (by simp; omega) (by simp; omega)]
    simp; omega
  have hmid : (BitVec.ofNat 16 x.val <<< 8 ||| (BitVec.ofNat 16 y.val <<< 4 ||| n.setWidth 16)).toNat =
      x.val * 256 + (y.val * 16 + n.toNat) := by
    rw [toNat_shiftLeft_or _ _ _ (by rw [hlow]; omega) (by simp; omega), hlow]
    simp; omega
  unfold packXYN
  rw [BitVec.or_assoc, BitVec.or_assoc, toNat_shiftLeft_or _ _ _ (by rw [hmid]; omega) (by simp; omega), hmid]
  simp; omega

theorem wordOfBytes_eq_ofNat (hi lo : Byte) : wordOfBytes hi lo = BitVec.ofNat 16 (hi.toNat * 256 + lo.toNat) := by
  apply BitVec.eq_of_toNat_eq
  have hh := hi.isLt
  have hl := lo.isLt
  unfold wordOfBytes
  rw [toNat_shiftLeft_or _ _ _ (by simp; omega) (by simp; omega)]
  simp; omega

/-! What a mask of R86 fixes: the op nibble, and with the longer masks n or nn. -/

theorem fieldOp_and (w m : Word) : fieldOp (w &&& m) = fieldOp w &&& fieldOp m := by
  ext k hk; simp [fieldOp, BitVec.getElem_extractLsb']

theorem fieldN_and (w m : Word) : fieldN (w &&& m) = fieldN w &&& fieldN m := by
  ext k hk; simp [fieldN, BitVec.getElem_extractLsb']

theorem fieldNN_and (w m : Word) : fieldNN (w &&& m) = fieldNN w &&& fieldNN m := by
  ext k hk; simp [fieldNN, BitVec.getElem_extractLsb']

/-- A word matched under a mask whose op nibble is F has the pattern's op. -/
theorem fieldOp_of_match {w m p : Word} (hm : fieldOp m = 0xF) (h : w &&& m = p) : fieldOp w = fieldOp p := by
  rw [← h, fieldOp_and, hm]
  exact (BitVec.and_allOnes (x := fieldOp w)).symm

/-- A word matched under a mask whose n is F has the pattern's n. -/
theorem fieldN_of_match {w m p : Word} (hm : fieldN m = 0xF) (h : w &&& m = p) : fieldN w = fieldN p := by
  rw [← h, fieldN_and, hm]
  exact (BitVec.and_allOnes (x := fieldN w)).symm

/-- A word matched under a mask whose nn is FF has the pattern's nn. -/
theorem fieldNN_of_match {w m p : Word} (hm : fieldNN m = 0xFF) (h : w &&& m = p) : fieldNN w = fieldNN p := by
  rw [← h, fieldNN_and, hm]
  exact (BitVec.and_allOnes (x := fieldNN w)).symm

/-- The bytes of a word make the word (R55). -/
@[simp] theorem wordOfBytes_bytes (w : Word) : wordOfBytes (highByte w) (lowByte w) = w := by
  apply BitVec.eq_of_getLsbD_eq
  intro k hk
  by_cases h : k < 8
  · simp [wordOfBytes, highByte, lowByte, h, hk]
  · simp [wordOfBytes, highByte, lowByte, h, hk, show k - 8 < 8 by omega, show 8 + (k - 8) = k by omega]

end Sys2Proof
end

