-- ==== Sys2Proof/Laws/State.lean ====
section
/-! SUPPORT. The small laws of State's updates: what each field, and each reader of a field, is after each update. -/

namespace Sys2Proof.Machine

variable (s : State)

/-! The sizes of R6 as numbers. -/

@[simp] theorem sizes_numV : sizes.numV = 16 := rfl
@[simp] theorem sizes_iWidth : sizes.iWidth = 16 := rfl
@[simp] theorem sizes_pcWidth : sizes.pcWidth = 16 := rfl
@[simp] theorem sizes_fbWidth : sizes.fbWidth = 64 := rfl
@[simp] theorem sizes_fbHeight : sizes.fbHeight = 32 := rfl
@[simp] theorem sizes_numKeys : sizes.numKeys = 16 := rfl
@[simp] theorem sizes_fontSize : sizes.fontSize = 80 := rfl

theorem reg_lt (r : Reg) : r.val < 16 := r.isLt
theorem key_lt (k : Key) : k.val < 16 := k.isLt
theorem column_lt (px : Column) : px.val < 64 := px.isLt
theorem row_lt (py : Row) : py.val < 32 := py.isLt

/-! Reset. -/

theorem State.reset_eq : State.reset = State.resetOf hw := rfl
@[simp] theorem State.resetOf_v (c : Config) : (State.resetOf c).v = Vector.replicate sizes.numV 0 := rfl
@[simp] theorem State.resetOf_i (c : Config) : (State.resetOf c).i = 0 := rfl
@[simp] theorem State.resetOf_pc (c : Config) : (State.resetOf c).pc = c.pcReset := rfl
@[simp] theorem State.resetOf_stack (c : Config) : (State.resetOf c).stack = [] := rfl
@[simp] theorem State.resetOf_dt (c : Config) : (State.resetOf c).dt = 0 := rfl
@[simp] theorem State.resetOf_st (c : Config) : (State.resetOf c).st = 0 := rfl
@[simp] theorem State.resetOf_key (c : Config) : (State.resetOf c).key = Vector.replicate sizes.numKeys false := rfl
@[simp] theorem State.resetOf_fb (c : Config) : (State.resetOf c).fb = Vector.replicate sizes.fbHeight (Vector.replicate sizes.fbWidth false) := rfl
@[simp] theorem State.resetOf_mem (c : Config) : (State.resetOf c).mem = [] := rfl
@[simp] theorem State.resetOf_fault (c : Config) : (State.resetOf c).fault = none := rfl
@[simp] theorem State.resetOf_getV (c : Config) (r : Reg) : (State.resetOf c).getV r = 0 := by simp [State.getV]
@[simp] theorem State.resetOf_keyDown (c : Config) (k : Key) : (State.resetOf c).keyDown k = false := by simp [State.keyDown]
@[simp] theorem State.resetOf_pixel (c : Config) (px : Column) (py : Row) : (State.resetOf c).pixel px py = false := by
  simp [State.pixel]
@[simp] theorem State.resetOf_byteAt (c d : Config) (a : Nat) : (State.resetOf c).byteAt a d = unlistedByte a d := rfl

theorem State.pc_lt : s.pc.toNat < 65536 := s.pc.isLt
theorem State.i_lt : s.i.toNat < 65536 := s.i.isLt

/-! setV -/

@[simp] theorem State.setV_v (r : Reg) (b : Byte) : (s.setV r b).v = s.v.set r.val b := rfl
@[simp] theorem State.setV_i (r : Reg) (b : Byte) : (s.setV r b).i = s.i := rfl
@[simp] theorem State.setV_pc (r : Reg) (b : Byte) : (s.setV r b).pc = s.pc := rfl
@[simp] theorem State.setV_stack (r : Reg) (b : Byte) : (s.setV r b).stack = s.stack := rfl
@[simp] theorem State.setV_dt (r : Reg) (b : Byte) : (s.setV r b).dt = s.dt := rfl
@[simp] theorem State.setV_st (r : Reg) (b : Byte) : (s.setV r b).st = s.st := rfl
@[simp] theorem State.setV_key (r : Reg) (b : Byte) : (s.setV r b).key = s.key := rfl
@[simp] theorem State.setV_fb (r : Reg) (b : Byte) : (s.setV r b).fb = s.fb := rfl
@[simp] theorem State.setV_mem (r : Reg) (b : Byte) : (s.setV r b).mem = s.mem := rfl
@[simp] theorem State.setV_fault (r : Reg) (b : Byte) : (s.setV r b).fault = s.fault := rfl
@[simp] theorem State.setV_due (r : Reg) (b : Byte) : (s.setV r b).due = s.due := rfl
@[simp] theorem State.setV_rnd (r : Reg) (b : Byte) : (s.setV r b).rnd = s.rnd := rfl
@[simp] theorem State.setV_draws (r : Reg) (b : Byte) : (s.setV r b).draws = s.draws := rfl
@[simp] theorem State.setV_keyDown (r : Reg) (b : Byte) (k : Key) : (s.setV r b).keyDown k = s.keyDown k := rfl
@[simp] theorem State.setV_byteAt (r : Reg) (b : Byte) (q : Nat) (c : Config) : (s.setV r b).byteAt q c = s.byteAt q c := rfl
@[simp] theorem State.setV_pixel (r : Reg) (b : Byte) (x : Column) (y : Row) : (s.setV r b).pixel x y = s.pixel x y := rfl

/-! setI -/

@[simp] theorem State.setI_v (a : Index) : (s.setI a).v = s.v := rfl
@[simp] theorem State.setI_i (a : Index) : (s.setI a).i = a := rfl
@[simp] theorem State.setI_pc (a : Index) : (s.setI a).pc = s.pc := rfl
@[simp] theorem State.setI_stack (a : Index) : (s.setI a).stack = s.stack := rfl
@[simp] theorem State.setI_dt (a : Index) : (s.setI a).dt = s.dt := rfl
@[simp] theorem State.setI_st (a : Index) : (s.setI a).st = s.st := rfl
@[simp] theorem State.setI_key (a : Index) : (s.setI a).key = s.key := rfl
@[simp] theorem State.setI_fb (a : Index) : (s.setI a).fb = s.fb := rfl
@[simp] theorem State.setI_mem (a : Index) : (s.setI a).mem = s.mem := rfl
@[simp] theorem State.setI_fault (a : Index) : (s.setI a).fault = s.fault := rfl
@[simp] theorem State.setI_due (a : Index) : (s.setI a).due = s.due := rfl
@[simp] theorem State.setI_rnd (a : Index) : (s.setI a).rnd = s.rnd := rfl
@[simp] theorem State.setI_draws (a : Index) : (s.setI a).draws = s.draws := rfl
@[simp] theorem State.setI_getV (a : Index) (q : Reg) : (s.setI a).getV q = s.getV q := rfl
@[simp] theorem State.setI_keyDown (a : Index) (k : Key) : (s.setI a).keyDown k = s.keyDown k := rfl
@[simp] theorem State.setI_byteAt (a : Index) (q : Nat) (c : Config) : (s.setI a).byteAt q c = s.byteAt q c := rfl
@[simp] theorem State.setI_pixel (a : Index) (x : Column) (y : Row) : (s.setI a).pixel x y = s.pixel x y := rfl

/-! setPc -/

@[simp] theorem State.setPc_v (a : ProgramCounter) : (s.setPc a).v = s.v := rfl
@[simp] theorem State.setPc_i (a : ProgramCounter) : (s.setPc a).i = s.i := rfl
@[simp] theorem State.setPc_pc (a : ProgramCounter) : (s.setPc a).pc = a := rfl
@[simp] theorem State.setPc_stack (a : ProgramCounter) : (s.setPc a).stack = s.stack := rfl
@[simp] theorem State.setPc_dt (a : ProgramCounter) : (s.setPc a).dt = s.dt := rfl
@[simp] theorem State.setPc_st (a : ProgramCounter) : (s.setPc a).st = s.st := rfl
@[simp] theorem State.setPc_key (a : ProgramCounter) : (s.setPc a).key = s.key := rfl
@[simp] theorem State.setPc_fb (a : ProgramCounter) : (s.setPc a).fb = s.fb := rfl
@[simp] theorem State.setPc_mem (a : ProgramCounter) : (s.setPc a).mem = s.mem := rfl
@[simp] theorem State.setPc_fault (a : ProgramCounter) : (s.setPc a).fault = s.fault := rfl
@[simp] theorem State.setPc_due (a : ProgramCounter) : (s.setPc a).due = s.due := rfl
@[simp] theorem State.setPc_rnd (a : ProgramCounter) : (s.setPc a).rnd = s.rnd := rfl
@[simp] theorem State.setPc_draws (a : ProgramCounter) : (s.setPc a).draws = s.draws := rfl
@[simp] theorem State.setPc_getV (a : ProgramCounter) (q : Reg) : (s.setPc a).getV q = s.getV q := rfl
@[simp] theorem State.setPc_keyDown (a : ProgramCounter) (k : Key) : (s.setPc a).keyDown k = s.keyDown k := rfl
@[simp] theorem State.setPc_byteAt (a : ProgramCounter) (q : Nat) (c : Config) : (s.setPc a).byteAt q c = s.byteAt q c := rfl
@[simp] theorem State.setPc_pixel (a : ProgramCounter) (x : Column) (y : Row) : (s.setPc a).pixel x y = s.pixel x y := rfl

/-! setDt -/

@[simp] theorem State.setDt_v (b : Byte) : (s.setDt b).v = s.v := rfl
@[simp] theorem State.setDt_i (b : Byte) : (s.setDt b).i = s.i := rfl
@[simp] theorem State.setDt_pc (b : Byte) : (s.setDt b).pc = s.pc := rfl
@[simp] theorem State.setDt_stack (b : Byte) : (s.setDt b).stack = s.stack := rfl
@[simp] theorem State.setDt_dt (b : Byte) : (s.setDt b).dt = b := rfl
@[simp] theorem State.setDt_st (b : Byte) : (s.setDt b).st = s.st := rfl
@[simp] theorem State.setDt_key (b : Byte) : (s.setDt b).key = s.key := rfl
@[simp] theorem State.setDt_fb (b : Byte) : (s.setDt b).fb = s.fb := rfl
@[simp] theorem State.setDt_mem (b : Byte) : (s.setDt b).mem = s.mem := rfl
@[simp] theorem State.setDt_fault (b : Byte) : (s.setDt b).fault = s.fault := rfl
@[simp] theorem State.setDt_due (b : Byte) : (s.setDt b).due = s.due := rfl
@[simp] theorem State.setDt_rnd (b : Byte) : (s.setDt b).rnd = s.rnd := rfl
@[simp] theorem State.setDt_draws (b : Byte) : (s.setDt b).draws = s.draws := rfl
@[simp] theorem State.setDt_getV (b : Byte) (q : Reg) : (s.setDt b).getV q = s.getV q := rfl
@[simp] theorem State.setDt_keyDown (b : Byte) (k : Key) : (s.setDt b).keyDown k = s.keyDown k := rfl
@[simp] theorem State.setDt_byteAt (b : Byte) (q : Nat) (c : Config) : (s.setDt b).byteAt q c = s.byteAt q c := rfl
@[simp] theorem State.setDt_pixel (b : Byte) (x : Column) (y : Row) : (s.setDt b).pixel x y = s.pixel x y := rfl

/-! setSt -/

@[simp] theorem State.setSt_v (b : Byte) : (s.setSt b).v = s.v := rfl
@[simp] theorem State.setSt_i (b : Byte) : (s.setSt b).i = s.i := rfl
@[simp] theorem State.setSt_pc (b : Byte) : (s.setSt b).pc = s.pc := rfl
@[simp] theorem State.setSt_stack (b : Byte) : (s.setSt b).stack = s.stack := rfl
@[simp] theorem State.setSt_dt (b : Byte) : (s.setSt b).dt = s.dt := rfl
@[simp] theorem State.setSt_st (b : Byte) : (s.setSt b).st = b := rfl
@[simp] theorem State.setSt_key (b : Byte) : (s.setSt b).key = s.key := rfl
@[simp] theorem State.setSt_fb (b : Byte) : (s.setSt b).fb = s.fb := rfl
@[simp] theorem State.setSt_mem (b : Byte) : (s.setSt b).mem = s.mem := rfl
@[simp] theorem State.setSt_fault (b : Byte) : (s.setSt b).fault = s.fault := rfl
@[simp] theorem State.setSt_due (b : Byte) : (s.setSt b).due = s.due := rfl
@[simp] theorem State.setSt_rnd (b : Byte) : (s.setSt b).rnd = s.rnd := rfl
@[simp] theorem State.setSt_draws (b : Byte) : (s.setSt b).draws = s.draws := rfl
@[simp] theorem State.setSt_getV (b : Byte) (q : Reg) : (s.setSt b).getV q = s.getV q := rfl
@[simp] theorem State.setSt_keyDown (b : Byte) (k : Key) : (s.setSt b).keyDown k = s.keyDown k := rfl
@[simp] theorem State.setSt_byteAt (b : Byte) (q : Nat) (c : Config) : (s.setSt b).byteAt q c = s.byteAt q c := rfl
@[simp] theorem State.setSt_pixel (b : Byte) (x : Column) (y : Row) : (s.setSt b).pixel x y = s.pixel x y := rfl

/-! setStack -/

@[simp] theorem State.setStack_v (l : List Word) : (s.setStack l).v = s.v := rfl
@[simp] theorem State.setStack_i (l : List Word) : (s.setStack l).i = s.i := rfl
@[simp] theorem State.setStack_pc (l : List Word) : (s.setStack l).pc = s.pc := rfl
@[simp] theorem State.setStack_stack (l : List Word) : (s.setStack l).stack = l := rfl
@[simp] theorem State.setStack_dt (l : List Word) : (s.setStack l).dt = s.dt := rfl
@[simp] theorem State.setStack_st (l : List Word) : (s.setStack l).st = s.st := rfl
@[simp] theorem State.setStack_key (l : List Word) : (s.setStack l).key = s.key := rfl
@[simp] theorem State.setStack_fb (l : List Word) : (s.setStack l).fb = s.fb := rfl
@[simp] theorem State.setStack_mem (l : List Word) : (s.setStack l).mem = s.mem := rfl
@[simp] theorem State.setStack_fault (l : List Word) : (s.setStack l).fault = s.fault := rfl
@[simp] theorem State.setStack_due (l : List Word) : (s.setStack l).due = s.due := rfl
@[simp] theorem State.setStack_rnd (l : List Word) : (s.setStack l).rnd = s.rnd := rfl
@[simp] theorem State.setStack_draws (l : List Word) : (s.setStack l).draws = s.draws := rfl
@[simp] theorem State.setStack_getV (l : List Word) (q : Reg) : (s.setStack l).getV q = s.getV q := rfl
@[simp] theorem State.setStack_keyDown (l : List Word) (k : Key) : (s.setStack l).keyDown k = s.keyDown k := rfl
@[simp] theorem State.setStack_byteAt (l : List Word) (q : Nat) (c : Config) : (s.setStack l).byteAt q c = s.byteAt q c := rfl
@[simp] theorem State.setStack_pixel (l : List Word) (x : Column) (y : Row) : (s.setStack l).pixel x y = s.pixel x y := rfl

/-! setFb -/

@[simp] theorem State.setFb_v (f : Framebuffer) : (s.setFb f).v = s.v := rfl
@[simp] theorem State.setFb_i (f : Framebuffer) : (s.setFb f).i = s.i := rfl
@[simp] theorem State.setFb_pc (f : Framebuffer) : (s.setFb f).pc = s.pc := rfl
@[simp] theorem State.setFb_stack (f : Framebuffer) : (s.setFb f).stack = s.stack := rfl
@[simp] theorem State.setFb_dt (f : Framebuffer) : (s.setFb f).dt = s.dt := rfl
@[simp] theorem State.setFb_st (f : Framebuffer) : (s.setFb f).st = s.st := rfl
@[simp] theorem State.setFb_key (f : Framebuffer) : (s.setFb f).key = s.key := rfl
@[simp] theorem State.setFb_fb (f : Framebuffer) : (s.setFb f).fb = f := rfl
@[simp] theorem State.setFb_mem (f : Framebuffer) : (s.setFb f).mem = s.mem := rfl
@[simp] theorem State.setFb_fault (f : Framebuffer) : (s.setFb f).fault = s.fault := rfl
@[simp] theorem State.setFb_due (f : Framebuffer) : (s.setFb f).due = s.due := rfl
@[simp] theorem State.setFb_rnd (f : Framebuffer) : (s.setFb f).rnd = s.rnd := rfl
@[simp] theorem State.setFb_draws (f : Framebuffer) : (s.setFb f).draws = s.draws := rfl
@[simp] theorem State.setFb_getV (f : Framebuffer) (q : Reg) : (s.setFb f).getV q = s.getV q := rfl
@[simp] theorem State.setFb_keyDown (f : Framebuffer) (k : Key) : (s.setFb f).keyDown k = s.keyDown k := rfl
@[simp] theorem State.setFb_byteAt (f : Framebuffer) (q : Nat) (c : Config) : (s.setFb f).byteAt q c = s.byteAt q c := rfl

/-! setMem -/

@[simp] theorem State.setMem_v (m : Memory) : (s.setMem m).v = s.v := rfl
@[simp] theorem State.setMem_i (m : Memory) : (s.setMem m).i = s.i := rfl
@[simp] theorem State.setMem_pc (m : Memory) : (s.setMem m).pc = s.pc := rfl
@[simp] theorem State.setMem_stack (m : Memory) : (s.setMem m).stack = s.stack := rfl
@[simp] theorem State.setMem_dt (m : Memory) : (s.setMem m).dt = s.dt := rfl
@[simp] theorem State.setMem_st (m : Memory) : (s.setMem m).st = s.st := rfl
@[simp] theorem State.setMem_key (m : Memory) : (s.setMem m).key = s.key := rfl
@[simp] theorem State.setMem_fb (m : Memory) : (s.setMem m).fb = s.fb := rfl
@[simp] theorem State.setMem_mem (m : Memory) : (s.setMem m).mem = m := rfl
@[simp] theorem State.setMem_fault (m : Memory) : (s.setMem m).fault = s.fault := rfl
@[simp] theorem State.setMem_due (m : Memory) : (s.setMem m).due = s.due := rfl
@[simp] theorem State.setMem_rnd (m : Memory) : (s.setMem m).rnd = s.rnd := rfl
@[simp] theorem State.setMem_draws (m : Memory) : (s.setMem m).draws = s.draws := rfl
@[simp] theorem State.setMem_getV (m : Memory) (q : Reg) : (s.setMem m).getV q = s.getV q := rfl
@[simp] theorem State.setMem_keyDown (m : Memory) (k : Key) : (s.setMem m).keyDown k = s.keyDown k := rfl
@[simp] theorem State.setMem_pixel (m : Memory) (x : Column) (y : Row) : (s.setMem m).pixel x y = s.pixel x y := rfl

/-! setFault -/

@[simp] theorem State.setFault_v (o : Option FaultRecord) : (s.setFault o).v = s.v := rfl
@[simp] theorem State.setFault_i (o : Option FaultRecord) : (s.setFault o).i = s.i := rfl
@[simp] theorem State.setFault_pc (o : Option FaultRecord) : (s.setFault o).pc = s.pc := rfl
@[simp] theorem State.setFault_stack (o : Option FaultRecord) : (s.setFault o).stack = s.stack := rfl
@[simp] theorem State.setFault_dt (o : Option FaultRecord) : (s.setFault o).dt = s.dt := rfl
@[simp] theorem State.setFault_st (o : Option FaultRecord) : (s.setFault o).st = s.st := rfl
@[simp] theorem State.setFault_key (o : Option FaultRecord) : (s.setFault o).key = s.key := rfl
@[simp] theorem State.setFault_fb (o : Option FaultRecord) : (s.setFault o).fb = s.fb := rfl
@[simp] theorem State.setFault_mem (o : Option FaultRecord) : (s.setFault o).mem = s.mem := rfl
@[simp] theorem State.setFault_fault (o : Option FaultRecord) : (s.setFault o).fault = o := rfl
@[simp] theorem State.setFault_due (o : Option FaultRecord) : (s.setFault o).due = s.due := rfl
@[simp] theorem State.setFault_rnd (o : Option FaultRecord) : (s.setFault o).rnd = s.rnd := rfl
@[simp] theorem State.setFault_draws (o : Option FaultRecord) : (s.setFault o).draws = s.draws := rfl
@[simp] theorem State.setFault_getV (o : Option FaultRecord) (q : Reg) : (s.setFault o).getV q = s.getV q := rfl
@[simp] theorem State.setFault_keyDown (o : Option FaultRecord) (k : Key) : (s.setFault o).keyDown k = s.keyDown k := rfl
@[simp] theorem State.setFault_byteAt (o : Option FaultRecord) (q : Nat) (c : Config) : (s.setFault o).byteAt q c = s.byteAt q c := rfl
@[simp] theorem State.setFault_pixel (o : Option FaultRecord) (x : Column) (y : Row) : (s.setFault o).pixel x y = s.pixel x y := rfl

/-! putKey -/

@[simp] theorem State.putKey_v (r : Key) (b : Bool) : (s.putKey r b).v = s.v := rfl
@[simp] theorem State.putKey_i (r : Key) (b : Bool) : (s.putKey r b).i = s.i := rfl
@[simp] theorem State.putKey_pc (r : Key) (b : Bool) : (s.putKey r b).pc = s.pc := rfl
@[simp] theorem State.putKey_stack (r : Key) (b : Bool) : (s.putKey r b).stack = s.stack := rfl
@[simp] theorem State.putKey_dt (r : Key) (b : Bool) : (s.putKey r b).dt = s.dt := rfl
@[simp] theorem State.putKey_st (r : Key) (b : Bool) : (s.putKey r b).st = s.st := rfl
@[simp] theorem State.putKey_key (r : Key) (b : Bool) : (s.putKey r b).key = s.key.set r.val b := rfl
@[simp] theorem State.putKey_fb (r : Key) (b : Bool) : (s.putKey r b).fb = s.fb := rfl
@[simp] theorem State.putKey_mem (r : Key) (b : Bool) : (s.putKey r b).mem = s.mem := rfl
@[simp] theorem State.putKey_fault (r : Key) (b : Bool) : (s.putKey r b).fault = s.fault := rfl
@[simp] theorem State.putKey_due (r : Key) (b : Bool) : (s.putKey r b).due = s.due := rfl
@[simp] theorem State.putKey_rnd (r : Key) (b : Bool) : (s.putKey r b).rnd = s.rnd := rfl
@[simp] theorem State.putKey_draws (r : Key) (b : Bool) : (s.putKey r b).draws = s.draws := rfl
@[simp] theorem State.putKey_getV (r : Key) (b : Bool) (q : Reg) : (s.putKey r b).getV q = s.getV q := rfl
@[simp] theorem State.putKey_byteAt (r : Key) (b : Bool) (q : Nat) (c : Config) : (s.putKey r b).byteAt q c = s.byteAt q c := rfl
@[simp] theorem State.putKey_pixel (r : Key) (b : Bool) (x : Column) (y : Row) : (s.putKey r b).pixel x y = s.pixel x y := rfl

/-! setInputs -/

@[simp] theorem State.setInputs_v (d : Bool) (b : Byte) (n : Nat) : (s.setInputs d b n).v = s.v := rfl
@[simp] theorem State.setInputs_i (d : Bool) (b : Byte) (n : Nat) : (s.setInputs d b n).i = s.i := rfl
@[simp] theorem State.setInputs_pc (d : Bool) (b : Byte) (n : Nat) : (s.setInputs d b n).pc = s.pc := rfl
@[simp] theorem State.setInputs_stack (d : Bool) (b : Byte) (n : Nat) : (s.setInputs d b n).stack = s.stack := rfl
@[simp] theorem State.setInputs_dt (d : Bool) (b : Byte) (n : Nat) : (s.setInputs d b n).dt = s.dt := rfl
@[simp] theorem State.setInputs_st (d : Bool) (b : Byte) (n : Nat) : (s.setInputs d b n).st = s.st := rfl
@[simp] theorem State.setInputs_key (d : Bool) (b : Byte) (n : Nat) : (s.setInputs d b n).key = s.key := rfl
@[simp] theorem State.setInputs_fb (d : Bool) (b : Byte) (n : Nat) : (s.setInputs d b n).fb = s.fb := rfl
@[simp] theorem State.setInputs_mem (d : Bool) (b : Byte) (n : Nat) : (s.setInputs d b n).mem = s.mem := rfl
@[simp] theorem State.setInputs_fault (d : Bool) (b : Byte) (n : Nat) : (s.setInputs d b n).fault = s.fault := rfl
@[simp] theorem State.setInputs_due (d : Bool) (b : Byte) (n : Nat) : (s.setInputs d b n).due = d := rfl
@[simp] theorem State.setInputs_rnd (d : Bool) (b : Byte) (n : Nat) : (s.setInputs d b n).rnd = b := rfl
@[simp] theorem State.setInputs_draws (d : Bool) (b : Byte) (n : Nat) : (s.setInputs d b n).draws = n := rfl
@[simp] theorem State.setInputs_getV (d : Bool) (b : Byte) (n : Nat) (q : Reg) : (s.setInputs d b n).getV q = s.getV q := rfl
@[simp] theorem State.setInputs_keyDown (d : Bool) (b : Byte) (n : Nat) (k : Key) : (s.setInputs d b n).keyDown k = s.keyDown k := rfl
@[simp] theorem State.setInputs_byteAt (d : Bool) (b : Byte) (n : Nat) (q : Nat) (c : Config) : (s.setInputs d b n).byteAt q c = s.byteAt q c := rfl
@[simp] theorem State.setInputs_pixel (d : Bool) (b : Byte) (n : Nat) (x : Column) (y : Row) : (s.setInputs d b n).pixel x y = s.pixel x y := rfl

/-! advancePc -/

@[simp] theorem State.advancePc_v : s.advancePc.v = s.v := rfl
@[simp] theorem State.advancePc_i : s.advancePc.i = s.i := rfl
@[simp] theorem State.advancePc_pc : s.advancePc.pc = s.pc + 2 := rfl
@[simp] theorem State.advancePc_stack : s.advancePc.stack = s.stack := rfl
@[simp] theorem State.advancePc_dt : s.advancePc.dt = s.dt := rfl
@[simp] theorem State.advancePc_st : s.advancePc.st = s.st := rfl
@[simp] theorem State.advancePc_key : s.advancePc.key = s.key := rfl
@[simp] theorem State.advancePc_fb : s.advancePc.fb = s.fb := rfl
@[simp] theorem State.advancePc_mem : s.advancePc.mem = s.mem := rfl
@[simp] theorem State.advancePc_fault : s.advancePc.fault = s.fault := rfl
@[simp] theorem State.advancePc_due : s.advancePc.due = s.due := rfl
@[simp] theorem State.advancePc_rnd : s.advancePc.rnd = s.rnd := rfl
@[simp] theorem State.advancePc_draws : s.advancePc.draws = s.draws := rfl
@[simp] theorem State.advancePc_getV (q : Reg) : s.advancePc.getV q = s.getV q := rfl
@[simp] theorem State.advancePc_keyDown (k : Key) : s.advancePc.keyDown k = s.keyDown k := rfl
@[simp] theorem State.advancePc_byteAt (q : Nat) (c : Config) : s.advancePc.byteAt q c = s.byteAt q c := rfl
@[simp] theorem State.advancePc_pixel (x : Column) (y : Row) : s.advancePc.pixel x y = s.pixel x y := rfl

/-! setByte -/

@[simp] theorem State.setByte_v (a : Nat) (b : Byte) (c : Config) : (s.setByte a b c).v = s.v := rfl
@[simp] theorem State.setByte_i (a : Nat) (b : Byte) (c : Config) : (s.setByte a b c).i = s.i := rfl
@[simp] theorem State.setByte_pc (a : Nat) (b : Byte) (c : Config) : (s.setByte a b c).pc = s.pc := rfl
@[simp] theorem State.setByte_stack (a : Nat) (b : Byte) (c : Config) : (s.setByte a b c).stack = s.stack := rfl
@[simp] theorem State.setByte_dt (a : Nat) (b : Byte) (c : Config) : (s.setByte a b c).dt = s.dt := rfl
@[simp] theorem State.setByte_st (a : Nat) (b : Byte) (c : Config) : (s.setByte a b c).st = s.st := rfl
@[simp] theorem State.setByte_key (a : Nat) (b : Byte) (c : Config) : (s.setByte a b c).key = s.key := rfl
@[simp] theorem State.setByte_fb (a : Nat) (b : Byte) (c : Config) : (s.setByte a b c).fb = s.fb := rfl
@[simp] theorem State.setByte_mem (a : Nat) (b : Byte) (c : Config) : (s.setByte a b c).mem = s.mem.write a b c := rfl
@[simp] theorem State.setByte_fault (a : Nat) (b : Byte) (c : Config) : (s.setByte a b c).fault = s.fault := rfl
@[simp] theorem State.setByte_due (a : Nat) (b : Byte) (c : Config) : (s.setByte a b c).due = s.due := rfl
@[simp] theorem State.setByte_rnd (a : Nat) (b : Byte) (c : Config) : (s.setByte a b c).rnd = s.rnd := rfl
@[simp] theorem State.setByte_draws (a : Nat) (b : Byte) (c : Config) : (s.setByte a b c).draws = s.draws := rfl
@[simp] theorem State.setByte_getV (a : Nat) (b : Byte) (c : Config) (q : Reg) : (s.setByte a b c).getV q = s.getV q := rfl
@[simp] theorem State.setByte_keyDown (a : Nat) (b : Byte) (c : Config) (k : Key) : (s.setByte a b c).keyDown k = s.keyDown k := rfl
@[simp] theorem State.setByte_pixel (a : Nat) (b : Byte) (c : Config) (x : Column) (y : Row) : (s.setByte a b c).pixel x y = s.pixel x y := rfl

/-! setPixel -/

@[simp] theorem State.setPixel_v (u : Column) (w : Row) (b : Bool) : (s.setPixel u w b).v = s.v := rfl
@[simp] theorem State.setPixel_i (u : Column) (w : Row) (b : Bool) : (s.setPixel u w b).i = s.i := rfl
@[simp] theorem State.setPixel_pc (u : Column) (w : Row) (b : Bool) : (s.setPixel u w b).pc = s.pc := rfl
@[simp] theorem State.setPixel_stack (u : Column) (w : Row) (b : Bool) : (s.setPixel u w b).stack = s.stack := rfl
@[simp] theorem State.setPixel_dt (u : Column) (w : Row) (b : Bool) : (s.setPixel u w b).dt = s.dt := rfl
@[simp] theorem State.setPixel_st (u : Column) (w : Row) (b : Bool) : (s.setPixel u w b).st = s.st := rfl
@[simp] theorem State.setPixel_key (u : Column) (w : Row) (b : Bool) : (s.setPixel u w b).key = s.key := rfl
@[simp] theorem State.setPixel_fb (u : Column) (w : Row) (b : Bool) : (s.setPixel u w b).fb = s.fb.set w.val ((s.fb[w.val]).set u.val b) := rfl
@[simp] theorem State.setPixel_mem (u : Column) (w : Row) (b : Bool) : (s.setPixel u w b).mem = s.mem := rfl
@[simp] theorem State.setPixel_fault (u : Column) (w : Row) (b : Bool) : (s.setPixel u w b).fault = s.fault := rfl
@[simp] theorem State.setPixel_due (u : Column) (w : Row) (b : Bool) : (s.setPixel u w b).due = s.due := rfl
@[simp] theorem State.setPixel_rnd (u : Column) (w : Row) (b : Bool) : (s.setPixel u w b).rnd = s.rnd := rfl
@[simp] theorem State.setPixel_draws (u : Column) (w : Row) (b : Bool) : (s.setPixel u w b).draws = s.draws := rfl
@[simp] theorem State.setPixel_getV (u : Column) (w : Row) (b : Bool) (q : Reg) : (s.setPixel u w b).getV q = s.getV q := rfl
@[simp] theorem State.setPixel_keyDown (u : Column) (w : Row) (b : Bool) (k : Key) : (s.setPixel u w b).keyDown k = s.keyDown k := rfl
@[simp] theorem State.setPixel_byteAt (u : Column) (w : Row) (b : Bool) (q : Nat) (c : Config) : (s.setPixel u w b).byteAt q c = s.byteAt q c := rfl

/-! takeFault -/

@[simp] theorem State.takeFault_v (w : Word) (e : Raise) : (s.takeFault w e).v = s.v := rfl
@[simp] theorem State.takeFault_i (w : Word) (e : Raise) : (s.takeFault w e).i = s.i := rfl
@[simp] theorem State.takeFault_pc (w : Word) (e : Raise) : (s.takeFault w e).pc = s.pc := rfl
@[simp] theorem State.takeFault_stack (w : Word) (e : Raise) : (s.takeFault w e).stack = s.stack := rfl
@[simp] theorem State.takeFault_dt (w : Word) (e : Raise) : (s.takeFault w e).dt = s.dt := rfl
@[simp] theorem State.takeFault_st (w : Word) (e : Raise) : (s.takeFault w e).st = s.st := rfl
@[simp] theorem State.takeFault_key (w : Word) (e : Raise) : (s.takeFault w e).key = s.key := rfl
@[simp] theorem State.takeFault_fb (w : Word) (e : Raise) : (s.takeFault w e).fb = s.fb := rfl
@[simp] theorem State.takeFault_mem (w : Word) (e : Raise) : (s.takeFault w e).mem = s.mem := rfl
@[simp] theorem State.takeFault_fault (w : Word) (e : Raise) : (s.takeFault w e).fault = some { cause := e.cause, pc := s.pc, word := w, info := e.info } := rfl
@[simp] theorem State.takeFault_due (w : Word) (e : Raise) : (s.takeFault w e).due = s.due := rfl
@[simp] theorem State.takeFault_rnd (w : Word) (e : Raise) : (s.takeFault w e).rnd = s.rnd := rfl
@[simp] theorem State.takeFault_draws (w : Word) (e : Raise) : (s.takeFault w e).draws = s.draws := rfl
@[simp] theorem State.takeFault_getV (w : Word) (e : Raise) (q : Reg) : (s.takeFault w e).getV q = s.getV q := rfl
@[simp] theorem State.takeFault_keyDown (w : Word) (e : Raise) (k : Key) : (s.takeFault w e).keyDown k = s.keyDown k := rfl
@[simp] theorem State.takeFault_byteAt (w : Word) (e : Raise) (q : Nat) (c : Config) : (s.takeFault w e).byteAt q c = s.byteAt q c := rfl
@[simp] theorem State.takeFault_pixel (w : Word) (e : Raise) (x : Column) (y : Row) : (s.takeFault w e).pixel x y = s.pixel x y := rfl

/-! Reads of what an update wrote. -/

/-- A register read after a register write. -/
@[simp] theorem State.getV_setV (r q : Reg) (b : Byte) :
    (s.setV r b).getV q = if q = r then b else s.getV q := by
  simp only [State.getV, State.setV, Vector.getElem_set, Fin.ext_iff, eq_comm]

/-- A key read after a key write. -/
@[simp] theorem State.keyDown_putKey (r q : Key) (b : Bool) :
    (s.putKey r b).keyDown q = if q = r then b else s.keyDown q := by
  simp only [State.keyDown, State.putKey, Vector.getElem_set, Fin.ext_iff, eq_comm]

/-- A pixel read after a pixel write. -/
@[simp] theorem State.pixel_setPixel (u x : Column) (w y : Row) (b : Bool) :
    (s.setPixel u w b).pixel x y = if x = u ∧ y = w then b else s.pixel x y := by
  simp only [State.pixel, State.setPixel, State.setFb, Vector.getElem_set, Fin.ext_iff]
  by_cases h : w.val = y.val
  · simp only [h, if_true, Vector.getElem_set]
    by_cases g : u.val = x.val <;> simp [g, eq_comm]
  · simp [h, Ne.symm h]

/-- Two states with the same fields are the same. -/
theorem State.ext_fields {s t : State} (hv : s.v = t.v) (hi : s.i = t.i) (hpc : s.pc = t.pc) (hstack : s.stack = t.stack)
    (hdt : s.dt = t.dt) (hst : s.st = t.st) (hkey : s.key = t.key) (hfb : s.fb = t.fb) (hmem : s.mem = t.mem)
    (hfault : s.fault = t.fault) (hdue : s.due = t.due) (hrnd : s.rnd = t.rnd) (hdraws : s.draws = t.draws) : s = t := by
  cases s; cases t; simp_all

/-- A register file is what its reads say. -/
theorem State.v_ext {s t : State} (h : ∀ r, s.getV r = t.getV r) : s.v = t.v := by
  apply Vector.ext
  intro k hk
  exact h ⟨k, hk⟩

/-- A framebuffer is what its pixels say. -/
theorem State.fb_ext {s t : State} (h : ∀ x y, s.pixel x y = t.pixel x y) : s.fb = t.fb := by
  apply Vector.ext
  intro k hk
  apply Vector.ext
  intro j hj
  exact h ⟨j, hj⟩ ⟨k, hk⟩

end Sys2Proof.Machine
end

