-- ==== Sys2Proof/Laws/Memory.lean ====
section
/-! SUPPORT. What the memory operations do: reads after writes, and that each keeps the canonical form (spec/20_memory.md R61). -/

namespace Sys2Proof.Machine

@[simp] theorem hw_memSize : hw.memSize = 4096 := rfl
@[simp] theorem hw_pcReset : hw.pcReset = 0x0200 := rfl
@[simp] theorem hw_pcLimit : hw.pcLimit = 0x0FFE := rfl
@[simp] theorem hw_stackDepth : hw.stackDepth = 16 := rfl
@[simp] theorem hw_romMax : hw.romMax = 0xE00 := rfl
@[simp] theorem hw_timersTickWhenExhausted : hw.timersTickWhenExhausted = false := rfl

/-- Past the font, an unlisted byte is 0 (R51). -/
theorem unlistedByte_of_ge {a : Nat} (h : 80 ≤ a) : unlistedByte a = 0 := by
  have hbase : hw.fontBase = 0 := rfl
  simp [unlistedByte, hbase, Vector.getElem?_eq_none (xs := hw.font) (i := a) h]

/-- What Reset leaves in MEM: the font, and 0 elsewhere (R52). -/
theorem unlistedByte_eq (a : Nat) : unlistedByte a = if a < 80 then fontBytes.getD a 0 else 0 := by
  by_cases h : a < 80
  · rw [if_pos h]
    have hall : ∀ k : Fin 80, unlistedByte k.val = fontBytes.getD k.val 0 := by decide
    exact hall ⟨a, h⟩
  · rw [if_neg h]
    exact unlistedByte_of_ge (Nat.le_of_not_lt h)

theorem Memory.read_filter_ne (m : Memory) {a q : Nat} (h : q ≠ a) :
    Memory.read (m.filter (fun c => c.1 ≠ a)) q = m.read q := by
  induction m with
  | nil => rfl
  | cons c rest ih =>
    obtain ⟨b, v⟩ := c
    by_cases hb : b = a
    · have : b ≠ q := by omega
      simpa [List.filter_cons, hb, Memory.read, show ¬a = q by omega] using ih
    · simp only [List.filter_cons, hb, ne_eq, not_false_eq_true, decide_true, if_true, Memory.read]
      rw [← ih]

theorem Memory.read_of_notMem {m : Memory} {a : Nat} (h : ∀ c ∈ m, c.1 ≠ a) : m.read a = unlistedByte a := by
  induction m with
  | nil => rfl
  | cons c rest ih =>
    obtain ⟨b, v⟩ := c
    have hb : b ≠ a := h (b, v) (by simp)
    simpa [Memory.read, hb] using ih (fun d hd => h d (by simp [hd]))

theorem Memory.mem_insert {c d : Host.Cell} {m : Memory} : d ∈ m.insert c ↔ d = c ∨ d ∈ m := by
  induction m with
  | nil => simp [Memory.insert]
  | cons e rest ih =>
    by_cases h : c.1 < e.1
    · simp [Memory.insert, h]
    · simp only [Memory.insert, h, if_false, List.mem_cons, ih]
      tauto

theorem Memory.read_insert (m : Memory) (a q : Nat) (v : Byte) (h : ∀ c ∈ m, c.1 ≠ a) :
    Memory.read (m.insert (a, v)) q = if q = a then v else m.read q := by
  induction m with
  | nil => simp [Memory.insert, Memory.read, eq_comm]
  | cons e rest ih =>
    obtain ⟨b, u⟩ := e
    have hb : b ≠ a := h (b, u) (by simp)
    have ih := ih (fun d hd => h d (by simp [hd]))
    by_cases hlt : a < b
    · simp [Memory.insert, hlt, Memory.read, eq_comm]
    · simp only [Memory.insert, hlt, if_false, Memory.read, ih]
      by_cases hq : q = a
      · simp [hq, hb]
      · simp [hq]

/-- A read after a write: the written byte at its address, every other byte as before (R61). -/
@[simp] theorem Memory.read_write (m : Memory) (a q : Nat) (v : Byte) :
    (m.write a v).read q = if q = a then v else m.read q := by
  have hno : ∀ c ∈ m.filter (fun c => c.1 ≠ a), c.1 ≠ a := by simp
  unfold Memory.write
  by_cases hv : v = unlistedByte a
  · simp only [hv, if_true]
    by_cases hq : q = a
    · subst hq
      simpa using Memory.read_of_notMem hno
    · simp only [hq, if_false]
      exact Memory.read_filter_ne m hq
  · simp only [hv, if_false]
    rw [Memory.read_insert _ _ _ _ hno]
    by_cases hq : q = a
    · simp [hq]
    · simp only [hq, if_false]
      exact Memory.read_filter_ne m hq

theorem Memory.wf_nil : Memory.wf [] := ⟨List.Pairwise.nil, fun _ h => absurd h List.not_mem_nil⟩

theorem Memory.wf_filter {m : Memory} (p : Host.Cell → Bool) (h : m.wf) : Memory.wf (m.filter p) :=
  ⟨h.1.filter p, fun c hc => h.2 c (List.mem_of_mem_filter hc)⟩

theorem Memory.wf_insert {m : Memory} {c : Host.Cell} (h : m.wf) (hno : ∀ d ∈ m, d.1 ≠ c.1)
    (hc : c.1 < hw.memSize ∧ c.2 ≠ unlistedByte c.1) : Memory.wf (m.insert c) := by
  refine ⟨?_, fun d hd => ?_⟩
  · induction m with
    | nil => simp [Memory.insert]
    | cons e rest ih =>
      have hp := List.pairwise_cons.mp h.1
      have hne : e.1 ≠ c.1 := hno e (by simp)
      by_cases hlt : c.1 < e.1
      · simp only [Memory.insert, hlt, if_true]
        refine List.pairwise_cons.mpr ⟨fun d hd => ?_, h.1⟩
        rcases List.mem_cons.mp hd with rfl | hd
        · exact hlt
        · exact Nat.lt_trans hlt (hp.1 d hd)
      · simp only [Memory.insert, hlt, if_false]
        refine List.pairwise_cons.mpr ⟨fun d hd => ?_, ?_⟩
        · rcases Memory.mem_insert.mp hd with rfl | hd
          · omega
          · exact hp.1 d hd
        · exact ih ⟨hp.2, fun d hd => h.2 d (by simp [hd])⟩ (fun d hd => hno d (by simp [hd]))
  · rcases Memory.mem_insert.mp hd with rfl | hd
    · exact hc
    · exact h.2 d hd

/-- A write inside MEM keeps the canonical form. -/
theorem Memory.wf_write {m : Memory} {a : Nat} (v : Byte) (h : m.wf) (ha : a < hw.memSize) : Memory.wf (m.write a v) := by
  unfold Memory.write
  by_cases hv : v = unlistedByte a
  · simpa only [hv, if_true] using Memory.wf_filter _ h
  · simp only [hv, if_false]
    exact Memory.wf_insert (Memory.wf_filter _ h) (by simp) ⟨ha, hv⟩

/-- Writing a list of bytes: the bytes at their addresses, every other byte as before. -/
theorem Memory.read_writeAll (bytes : List Byte) (m : Memory) (a q : Nat) :
    (m.writeAll a bytes).read q = if a ≤ q then (bytes[q - a]?).getD (m.read q) else m.read q := by
  induction bytes generalizing m a with
  | nil => simp [Memory.writeAll]
  | cons b rest ih =>
    simp only [Memory.writeAll, ih, Memory.read_write]
    rcases Nat.lt_trichotomy q a with h | h | h
    · simp [show ¬a + 1 ≤ q by omega, show ¬a ≤ q by omega, show q ≠ a by omega]
    · subst h; simp
    · obtain ⟨k, rfl⟩ : ∃ k, q = a + 1 + k := ⟨q - a - 1, by omega⟩
      simp [show a ≤ a + 1 + k by omega, show a + 1 + k - a = k + 1 by omega, show a + 1 + k ≠ a by omega]

theorem Memory.wf_writeAll (bytes : List Byte) {m : Memory} {a : Nat} (h : m.wf) (ha : a + bytes.length ≤ hw.memSize) :
    Memory.wf (m.writeAll a bytes) := by
  induction bytes generalizing m a with
  | nil => exact h
  | cons b rest ih =>
    simp only [List.length_cons] at ha
    exact ih (Memory.wf_write b h (by omega)) (by omega)

/-- No font byte lies in the program region. -/
@[simp] theorem fontInProgram_hw : fontInProgram hw = [] := by decide

/-- The zeroed program region (R65): only the lower bytes stay listed. -/
theorem Memory.clearProgram_eq (m : Memory) : m.clearProgram = m.filter (fun c => decide (c.1 < 0x200)) := by
  simp [Memory.clearProgram]

/-- The zeroed program region (R65): 0 at 0x200 and above, every lower byte as before. -/
theorem Memory.read_clearProgram (m : Memory) (q : Nat) :
    m.clearProgram.read q = if q < 0x200 then m.read q else 0 := by
  rw [Memory.clearProgram_eq]
  induction m with
  | nil =>
    by_cases hq : q < 0x200
    · simp [hq]
    · simpa [hq, Memory.read] using unlistedByte_of_ge (a := q) (by omega)
  | cons c rest ih =>
    obtain ⟨b, v⟩ := c
    rw [List.filter_cons]
    by_cases hb : b < 0x200
    · simp only [hb, decide_true, if_true, Memory.read, ih]
      by_cases hq : b = q
      · subst hq; simp [hb]
      · simp [hq]
    · simp only [hb, decide_false, Bool.false_eq_true, if_false, ih, Memory.read]
      by_cases hq : b = q
      · subst hq; simp [hb]
      · simp [hq]

theorem Memory.wf_clearProgram {m : Memory} (h : m.wf) : Memory.wf m.clearProgram := by
  rw [Memory.clearProgram_eq]
  exact Memory.wf_filter _ h

/-! The readers of State. -/

@[simp] theorem State.byteAt_setByte (s : State) (a q : Nat) (b : Byte) :
    (s.setByte a b).byteAt q = if q = a then b else s.byteAt q := by
  simp [State.byteAt]

@[simp] theorem State.byteAt_setMem (s : State) (m : Memory) (q : Nat) : (s.setMem m).byteAt q = m.read q := rfl

end Sys2Proof.Machine
end

