-- ==== Sys2Proof/Laws/Ops.lean ====
section
/-! SUPPORT. For each shared operation, one lemma that says everything it can do; later proofs cite these and do not unfold it. -/

namespace Sys2Proof.Machine

variable {s t : State}

/-! ### Skips, pushes and pops -/

/-- A skip writes PC only (R118). -/
theorem State.skipIf_eq (s : State) (b : Bool) : s.skipIf b = s.setPc (if b then s.pc + 2 else s.pc) := by
  cases b <;> rfl

/-- Push (R29). -/
theorem State.push_eq (s : State) (depth : Nat) (v : Word) :
    s.push depth v =
      if depth ≤ s.stack.length then .error ⟨.stackOverflow, BitVec.ofNat 16 depth⟩ else .ok (s.setStack (v :: s.stack)) := rfl

/-- Pop of a stack that holds an entry (R30). -/
theorem State.pop_of_cons {v : Word} {rest : List Word} (h : s.stack = v :: rest) : s.pop = .ok (v, s.setStack rest) := by
  simp [State.pop, h]

/-- Pop of an empty stack (R30). -/
theorem State.pop_of_nil (h : s.stack = []) : s.pop = .error ⟨.stackUnderflow, 0⟩ := by
  simp [State.pop, h]

/-! ### Range checks and block transfers -/

/-- The info of a failed range check at I is I (R54). -/
theorem checkRange_at_i (s : State) (n : Nat) :
    checkRange s.i.toNat n = if 4096 < s.i.toNat + n ∧ 0 < n then .error ⟨.memoryBounds, s.i⟩ else .ok () := by
  simp [checkRange, and_comm]

theorem State.memRead_of_lt {a : Nat} (h : a < 4096) : s.memRead a = .ok (s.byteAt a) := by
  simp [State.memRead, show ¬4096 < a + 1 by omega]

theorem State.memWrite_of_lt {a : Nat} (b : Byte) (h : a < 4096) : s.memWrite a b = .ok (s.setByte a b) := by
  simp [State.memWrite, show ¬4096 < a + 1 by omega]

/-- A block of bytes inside MEM is written whole (R53, R61). -/
theorem State.memWriteAll_of_le (bytes : List Byte) (s : State) (a : Nat) (h : a + bytes.length ≤ 4096) :
    s.memWriteAll a bytes = .ok (s.setMem (s.mem.writeAll a bytes)) := by
  induction bytes generalizing s a with
  | nil => rfl
  | cons b rest ih =>
    simp only [List.length_cons] at h
    simp only [State.memWriteAll, State.memWrite_of_lt b (show a < 4096 by omega), Memory.writeAll]
    exact ih (s.setByte a b) (a + 1) (by omega)

/-- A store at I: nothing but MEM changes, or MemoryBounds before any write (R54). -/
theorem State.storeAtI_eq (s : State) (bytes : List Byte) (h : 0 < bytes.length) :
    s.storeAtI bytes =
      if 4096 < s.i.toNat + bytes.length then .error ⟨.memoryBounds, s.i⟩
      else .ok (s.setMem (s.mem.writeAll s.i.toNat bytes)) := by
  by_cases hb : 4096 < s.i.toNat + bytes.length
  · simp [State.storeAtI, checkRange_at_i, hb, h]
  · simpa [State.storeAtI, checkRange_at_i, hb] using State.memWriteAll_of_le bytes s s.i.toNat (by omega)

theorem mem_regsThrough {x r : Reg} : r ∈ regsThrough x ↔ r ≤ x := by
  simp [regsThrough]

theorem regsThrough_eq (x : Reg) : regsThrough x = (List.finRange 16).take (x.val + 1) := by
  revert x; decide

@[simp] theorem length_regsThrough (x : Reg) : (regsThrough x).length = x.val + 1 := by
  revert x; decide

theorem getElem?_regsThrough (x : Reg) (k : Nat) :
    (regsThrough x)[k]? = if h : k < 16 then (if k ≤ x.val then some (⟨k, h⟩ : Reg) else none) else none := by
  have hx : x.val < 16 := x.isLt
  rw [regsThrough_eq, List.getElem?_take]
  by_cases h : k < 16
  · by_cases hk : k ≤ x.val
    · simp [h, hk, Nat.lt_succ_of_le hk]
    · simp [h, hk, show ¬k < x.val + 1 by omega]
  · simp [h, show ¬k < x.val + 1 by omega]

/-- A load from I inside MEM: the registers of the list get their bytes, nothing else changes (R165). -/
theorem State.loadFromI_of_lt (rs : List Reg) (s : State) (h : ∀ r ∈ rs, s.i.toNat + r.val < 4096) :
    ∃ f, s.loadFromI rs = .ok { s with v := f } ∧
      ∀ q : Reg, State.getV { s with v := f } q = if q ∈ rs then s.byteAt (s.i.toNat + q.val) else s.getV q := by
  induction rs generalizing s with
  | nil => exact ⟨s.v, rfl, by simp⟩
  | cons r rest ih =>
    simp only [State.loadFromI, State.memRead_of_lt (h r (by simp))]
    obtain ⟨f, hf, hg⟩ := ih (s.setV r (s.byteAt (s.i.toNat + r.val))) (fun q hq => h q (by simp [hq]))
    refine ⟨f, hf, fun q => ?_⟩
    refine (hg q).trans ?_
    by_cases hq : q ∈ rest
    · simp [hq]
    · by_cases hr : q = r <;> simp [hq, hr]

/-! ### The execute step -/

/-- What an instruction that may raise answers: the body's state, or the state at the start of the cycle with FAULT set (R83, R223). -/
theorem State.execute_cases {w : Word} {body : State → Except Raise State} (h : s.execute w body = .next t) :
    body s.advancePc = .ok t ∨ ∃ r, body s.advancePc = .error r ∧ t = s.takeFault w r := by
  unfold State.execute at h
  split at h
  · next u hu => cases h; exact .inl hu
  · next r hr => cases h; exact .inr ⟨r, hr, rfl⟩

theorem State.execute_ok {w : Word} {body : State → Except Raise State} (h : body s.advancePc = .ok t) :
    s.execute w body = .next t := by
  simp [State.execute, h]

theorem State.execute_error {w : Word} {body : State → Except Raise State} {r : Raise} (h : body s.advancePc = .error r) :
    s.execute w body = .next (s.takeFault w r) := by
  simp [State.execute, h]

/-! ### Parameters -/

/-- With this hardware's parameters an instruction is what `exec` says. -/
@[simp] theorem execWith_hw (i : Instr) (s : State) : execWith hw i s = exec i s := by
  cases i <;> rfl

/-- The execute step of this hardware (R86, R87). -/
theorem execWord_eq (w : Word) (s : State) :
    execWord w s = match decode w with
      | .ok i => exec i s
      | .error g => execNoOpWord g s := by
  unfold execWord
  cases decode w with
  | ok i => exact execWith_hw i s
  | error g => rfl

/-! ### The cycle -/

/-- The end of a cycle is the timer step of R230 if `due`, then the draw of the next inputs. -/
theorem State.endCycle_eq (s : State) : s.endCycle = (if s.due then s.timerStep else s).drawInputs := by
  unfold State.endCycle
  congr 1
  apply State.ext_fields <;> cases s.due <;> simp [timerAfter, decTimer, State.timerStep]
  all_goals intro h; simp [h]

@[simp] theorem State.endCycle_v (s : State) : s.endCycle.v = s.v := rfl
@[simp] theorem State.endCycle_i (s : State) : s.endCycle.i = s.i := rfl
@[simp] theorem State.endCycle_pc (s : State) : s.endCycle.pc = s.pc := rfl
@[simp] theorem State.endCycle_stack (s : State) : s.endCycle.stack = s.stack := rfl
@[simp] theorem State.endCycle_key (s : State) : s.endCycle.key = s.key := rfl
@[simp] theorem State.endCycle_fb (s : State) : s.endCycle.fb = s.fb := rfl
@[simp] theorem State.endCycle_mem (s : State) : s.endCycle.mem = s.mem := rfl
@[simp] theorem State.endCycle_fault (s : State) : s.endCycle.fault = s.fault := rfl
@[simp] theorem State.endCycle_dt (s : State) : s.endCycle.dt = timerAfter s.due s.dt := rfl
@[simp] theorem State.endCycle_st (s : State) : s.endCycle.st = timerAfter s.due s.st := rfl

/-- A timer at the end of a cycle, as a number (R230). -/
theorem toNat_timerAfter (due : Bool) (b : Byte) : (timerAfter due b).toNat = if due then b.toNat - 1 else b.toNat := by
  revert due b; decide

/-- PC above PC_LIMIT, as numbers. -/
theorem State.exhausted_iff_with (s : State) (c : Config) : s.exhausted c = true ↔ c.pcLimit.toNat < s.pc.toNat := by
  simp [State.exhausted, BitVec.lt_def]

/-- PC > 0x0FFE, as a number (R11). -/
theorem State.exhausted_iff (s : State) : s.exhausted = true ↔ 0x0FFE < s.pc.toNat := by
  simp [State.exhausted, BitVec.lt_def]

/-- Everything one cycle can do (R83, R225): nothing in a faulted core, nothing in an exhausted one, else the execute step, and after it
the end of the cycle unless a fault was raised. -/
theorem cycle_cases (h : cycle s = .next t) :
    (s.fault.isSome ∧ t = s) ∨ (s.fault = none ∧ s.exhausted = true ∧ t = s) ∨
      (s.fault = none ∧ s.exhausted = false ∧ ∃ u, execWord s.fetchWord s = .next u ∧
        t = if u.fault.isSome then u else u.endCycle) := by
  unfold cycle at h
  split at h
  · next hf => cases h; exact .inl ⟨hf, rfl⟩
  · next hf =>
    have hn : s.fault = none := by simpa using hf
    split at h
    · next he => cases h; exact .inr (.inl ⟨hn, he, rfl⟩)
    · next he =>
      refine .inr (.inr ⟨hn, by simpa using he, ?_⟩)
      cases hx : execWord s.fetchWord s with
      | next u => rw [hx] at h; cases h; exact ⟨u, rfl, rfl⟩
      | fault r => exact nomatch r
      | refused r => rw [hx] at h; cases h

theorem cycle_of_faulted (h : s.fault.isSome = true) : cycle s = .next s := by simp [cycle, h]

/-- An exhausted cycle, for every value of the parameters (R221, decision D8). -/
theorem cycle_of_exhausted_with {c : Config} (hf : s.fault = none) (h : s.exhausted c = true) :
    cycle s c = .next (s.exhaustedCycle c.timersTickWhenExhausted) := by
  simp [cycle, hf, h]

theorem cycle_of_exhausted (hf : s.fault = none) (h : s.exhausted = true) : cycle s = .next s := by
  rw [cycle_of_exhausted_with hf h]
  rfl

theorem cycle_of_running (hf : s.fault = none) (h : s.exhausted = false) :
    cycle s = finishCycle (execWord s.fetchWord s) := by
  simp [cycle, hf, h]

/-! ### Events -/

@[simp] theorem event_cycle (s : State) : event .cycle s = step s := rfl

/-- Events in two parts. -/
theorem events_append (es fs : List Event) (s : State) :
    events (es ++ fs) s = match events es s with
      | .next t => events fs t
      | .fault r => .fault r
      | .refused r => .refused r := by
  induction es generalizing s with
  | nil => rfl
  | cons e rest ih =>
    simp only [List.cons_append, events]
    cases event e s with
    | next t => exact ih t
    | fault r => rfl
    | refused r => rfl

end Sys2Proof.Machine
end

