-- ==== Sys2Proof/Laws/Display.lean ====
section
/-! SUPPORT. What drawing does (spec/43_display.md R182, R183): the cells under the set bits of a sprite, each visited once, are toggled,
and VF says whether one of them was set. -/

namespace Sys2Proof.Machine

/-- The position of column `c` of row `r`, wrapped (R180). -/
def spriteCell (ox oy r c : Nat) : Column × Row := (wrapX (ox + c), wrapY (oy + r))

/-- The cells under the set bits of a row, in the order they are visited. -/
def rowCells (ox oy r : Nat) (b : Byte) : List (Column × Row) :=
  ((List.range 8).filter (spriteBit b)).map (spriteCell ox oy r)

/-- The cells under the set bits of the rows of a list, the bytes read from the state. -/
def spriteCells (s : State) (ox oy : Nat) (rows : List Nat) : List (Column × Row) :=
  rows.flatMap fun r => rowCells ox oy r (s.byteAt (s.i.toNat + r))

/-- Toggle the cells of a list, in order. -/
def State.drawCells (s : State) (ps : List (Column × Row)) : State :=
  ps.foldl (fun u p => u.drawPixel p.1 p.2) s

/-- Drawing one pixel changes V and FB only. -/
theorem State.drawPixel_eq (s : State) (x : Column) (y : Row) :
    ∃ f g, s.drawPixel x y = { s with v := f, fb := g } := by
  unfold State.drawPixel
  by_cases h : s.pixel x y
  · rw [if_pos h]; exact ⟨_, _, rfl⟩
  · rw [if_neg h]; exact ⟨s.v, _, rfl⟩

/-- Drawing cells changes V and FB only. -/
theorem State.drawCells_eq (ps : List (Column × Row)) (s : State) :
    ∃ f g, s.drawCells ps = { s with v := f, fb := g } := by
  induction ps generalizing s with
  | nil => exact ⟨s.v, s.fb, rfl⟩
  | cons p rest ih =>
    obtain ⟨f, g, h⟩ := s.drawPixel_eq p.1 p.2
    obtain ⟨f', g', h'⟩ := ih (s.drawPixel p.1 p.2)
    refine ⟨f', g', ?_⟩
    show State.drawCells (s.drawPixel p.1 p.2) rest = _
    rw [h', h]

theorem State.pixel_drawPixel (s : State) (x u : Column) (y w : Row) :
    (s.drawPixel x y).pixel u w = if u = x ∧ w = y then !s.pixel u w else s.pixel u w := by
  unfold State.drawPixel
  by_cases hp : s.pixel x y <;> by_cases h : u = x ∧ w = y <;> simp [hp, h]

theorem State.getV_drawPixel (s : State) (x : Column) (y : Row) (q : Reg) :
    (s.drawPixel x y).getV q = if q = vF ∧ s.pixel x y = true then 1 else s.getV q := by
  unfold State.drawPixel
  by_cases hp : s.pixel x y <;> by_cases h : q = vF <;> simp [hp, h]

/-- Cells without repeats are each toggled once. -/
theorem State.pixel_drawCells (ps : List (Column × Row)) (s : State) (hn : ps.Nodup) (x : Column) (y : Row) :
    (s.drawCells ps).pixel x y = if (x, y) ∈ ps then !s.pixel x y else s.pixel x y := by
  induction ps generalizing s with
  | nil => simp [State.drawCells]
  | cons p rest ih =>
    obtain ⟨hp, hr⟩ := List.nodup_cons.mp hn
    show (State.drawCells (s.drawPixel p.1 p.2) rest).pixel x y = _
    rw [ih _ hr, State.pixel_drawPixel]
    by_cases h : (x, y) = p
    · subst h; simp [hp]
    · have h' : ¬(x = p.1 ∧ y = p.2) := fun e => h (Prod.ext e.1 e.2)
      simp [h, h']

/-- VF after drawing cells without repeats: 1 if one of them was set, else as it was; no other register changes. -/
theorem State.getV_drawCells (ps : List (Column × Row)) (s : State) (hn : ps.Nodup) (q : Reg) :
    (s.drawCells ps).getV q = if q = vF ∧ (∃ p ∈ ps, s.pixel p.1 p.2 = true) then 1 else s.getV q := by
  induction ps generalizing s with
  | nil => simp [State.drawCells]
  | cons p rest ih =>
    obtain ⟨hp, hr⟩ := List.nodup_cons.mp hn
    show (State.drawCells (s.drawPixel p.1 p.2) rest).getV q = _
    rw [ih _ hr, State.getV_drawPixel]
    have hsame : ∀ c ∈ rest, (s.drawPixel p.1 p.2).pixel c.1 c.2 = s.pixel c.1 c.2 := fun c hc => by
      rw [State.pixel_drawPixel, if_neg]
      exact fun e => hp (by have : c = p := Prod.ext e.1 e.2; rwa [← this])
    have hex : (∃ c ∈ rest, (s.drawPixel p.1 p.2).pixel c.1 c.2 = true) ↔ ∃ c ∈ rest, s.pixel c.1 c.2 = true :=
      ⟨fun ⟨c, hc, h⟩ => ⟨c, hc, by rwa [← hsame c hc]⟩, fun ⟨c, hc, h⟩ => ⟨c, hc, by rwa [hsame c hc]⟩⟩
    simp only [hex]
    by_cases hq : q = vF <;> by_cases he : (∃ c ∈ rest, s.pixel c.1 c.2 = true) <;>
      by_cases hs : s.pixel p.1 p.2 = true <;> simp [hq, he, hs]

theorem State.drawRow_eq (s : State) (ox oy r : Nat) (b : Byte) : s.drawRow ox oy r b = s.drawCells (rowCells ox oy r b) := by
  unfold State.drawRow State.drawCells rowCells
  rw [List.foldl_map, List.foldl_filter]
  rfl

/-- Rows inside MEM are drawn cell by cell. -/
theorem State.drawRows_of_lt (rows : List Nat) (s : State) (ox oy : Nat) (h : ∀ r ∈ rows, s.i.toNat + r < 4096) :
    s.drawRows ox oy rows = .ok (s.drawCells (spriteCells s ox oy rows)) := by
  induction rows generalizing s with
  | nil => rfl
  | cons r rest ih =>
    simp only [State.drawRows, State.memRead_of_lt (h r (by simp)), State.drawRow_eq]
    obtain ⟨f, g, hd⟩ := s.drawCells_eq (rowCells ox oy r (s.byteAt (s.i.toNat + r)))
    have hi : (s.drawCells (rowCells ox oy r (s.byteAt (s.i.toNat + r)))).i = s.i := by rw [hd]
    have hm : ∀ a, (s.drawCells (rowCells ox oy r (s.byteAt (s.i.toNat + r)))).byteAt a = s.byteAt a := by rw [hd]; exact fun _ => rfl
    rw [ih _ (fun q hq => by rw [hi]; exact h q (by simp [hq]))]
    have hcells : spriteCells (s.drawCells (rowCells ox oy r (s.byteAt (s.i.toNat + r)))) ox oy rest = spriteCells s ox oy rest := by
      simp only [spriteCells, hi, hm]
    rw [hcells]
    simp only [spriteCells, List.flatMap_cons, State.drawCells, List.foldl_append]

theorem spriteCell_inj {ox oy r c r' c' : Nat} (hc : c < 8) (hc' : c' < 8) (hr : r < 32) (hr' : r' < 32)
    (h : spriteCell ox oy r c = spriteCell ox oy r' c') : r = r' ∧ c = c' := by
  simp only [spriteCell, wrapX, wrapY, Prod.mk.injEq, Fin.mk.injEq] at h
  omega

theorem mem_rowCells {ox oy r : Nat} {b : Byte} {p : Column × Row} :
    p ∈ rowCells ox oy r b ↔ ∃ c, c < 8 ∧ spriteBit b c = true ∧ spriteCell ox oy r c = p := by
  simp [rowCells, and_assoc]

theorem mem_spriteCells {s : State} {ox oy : Nat} {rows : List Nat} {p : Column × Row} :
    p ∈ spriteCells s ox oy rows ↔
      ∃ r ∈ rows, ∃ c, c < 8 ∧ spriteBit (s.byteAt (s.i.toNat + r)) c = true ∧ spriteCell ox oy r c = p := by
  simp [spriteCells, mem_rowCells]

/-- No cell is visited twice (R183). -/
theorem nodup_spriteCells (s : State) (ox oy n : Nat) (hn : n ≤ 32) : (spriteCells s ox oy (List.range n)).Nodup := by
  refine List.nodup_flatMap.mpr ⟨fun r hr => ?_, ?_⟩
  · refine List.Nodup.map_on ?_ (List.nodup_range.filter _)
    intro c hc c' hc' h
    simp only [List.mem_filter, List.mem_range] at hc hc'
    have hr := List.mem_range.mp hr
    exact (spriteCell_inj hc.1 hc'.1 (by omega) (by omega) h).2
  · refine List.Pairwise.imp_of_mem ?_ List.nodup_range
    intro r r' hr hr' hne p hp hp'
    obtain ⟨c, hc, _, rfl⟩ := mem_rowCells.mp hp
    obtain ⟨c', hc', _, h⟩ := mem_rowCells.mp hp'
    have hr := List.mem_range.mp hr
    have hr' := List.mem_range.mp hr'
    exact hne (spriteCell_inj hc hc' (by omega) (by omega) h.symm).1

end Sys2Proof.Machine
end

