-- ==== Sys2Proof/Laws/Exec.lean ====
section
/-! SUPPORT. What each instruction that may raise answers, as one equation: a next state in every case (spec/60_exceptions.md R222, R223). -/

namespace Sys2Proof.Machine

theorem execRet_eq (s : State) :
    execRet s = .next (match s.stack with
      | [] => s.takeFault (encode .ret) ⟨.stackUnderflow, 0⟩
      | a :: rest => (s.advancePc.setStack rest).setPc a) := by
  cases h : s.stack <;> simp [execRet, State.execute, State.pop, h]

theorem execCall_eq (nnn : Imm12) (s : State) :
    execCall nnn s = .next (if 16 ≤ s.stack.length then s.takeFault (encode (.call nnn)) ⟨.stackOverflow, 16⟩
      else (s.advancePc.setStack (s.advancePc.pc :: s.stack)).setPc (zextAddr nnn)) := by
  by_cases h : 16 ≤ s.stack.length <;> simp [execCall, State.execute, State.push, h]

theorem execSkp_eq (x : Reg) (s : State) :
    execSkp x s = .next (if h : (s.getV x).toNat < 16 then s.advancePc.skipIf (s.keyDown ⟨(s.getV x).toNat, h⟩)
      else s.takeFault (encode (.skp x)) ⟨.invalidKeyIndex, zextByte (s.getV x)⟩) := by
  by_cases h : (s.getV x).toNat < 16 <;> simp [execSkp, State.execute, keyOperand, h]

theorem execSknp_eq (x : Reg) (s : State) :
    execSknp x s = .next (if h : (s.getV x).toNat < 16 then s.advancePc.skipIf (!s.keyDown ⟨(s.getV x).toNat, h⟩)
      else s.takeFault (encode (.sknp x)) ⟨.invalidKeyIndex, zextByte (s.getV x)⟩) := by
  by_cases h : (s.getV x).toNat < 16 <;> simp [execSknp, State.execute, keyOperand, h]

/-- The bytes of a store at I, where the range is inside MEM (R54). -/
theorem State.execute_storeAtI (s : State) (w : Word) (bytes : State → List Byte) (hb : 0 < (bytes s.advancePc).length) :
    s.execute w (fun t => t.storeAtI (bytes t)) =
      .next (if 4096 < s.i.toNat + (bytes s.advancePc).length then s.takeFault w ⟨.memoryBounds, s.i⟩
        else s.advancePc.setMem (s.mem.writeAll s.i.toNat (bytes s.advancePc))) := by
  simp only [State.execute, State.storeAtI_eq _ _ hb]
  by_cases h : 4096 < s.i.toNat + (bytes s.advancePc).length <;> simp [h]

theorem execLdB_eq (x : Reg) (s : State) :
    execLdB x s = .next (if 4096 < s.i.toNat + 3 then s.takeFault (encode (.ldB x)) ⟨.memoryBounds, s.i⟩
      else s.advancePc.setMem (s.mem.writeAll s.i.toNat (bcdDigits (s.getV x)))) :=
  s.execute_storeAtI _ (fun t => bcdDigits (t.getV x)) (by simp [bcdDigits])

theorem execStoreRegs_eq (x : Reg) (s : State) :
    execStoreRegs x s = .next (if 4096 < s.i.toNat + (x.val + 1) then s.takeFault (encode (.storeRegs x)) ⟨.memoryBounds, s.i⟩
      else s.advancePc.setMem (s.mem.writeAll s.i.toNat ((regsThrough x).map s.getV))) := by
  have h := s.execute_storeAtI (encode (.storeRegs x)) (fun t => (regsThrough x).map t.getV) (by simp)
  rw [List.length_map, length_regsThrough] at h
  exact h

/-- Fx65: a fault, or the registers 0..x get their bytes and nothing else but PC changes (R165). -/
theorem execLoadRegs_eq (x : Reg) (s : State) :
    if 4096 < s.i.toNat + (x.val + 1) then execLoadRegs x s = .next (s.takeFault (encode (.loadRegs x)) ⟨.memoryBounds, s.i⟩)
    else ∃ f, execLoadRegs x s = .next { s.advancePc with v := f } ∧
      ∀ q : Reg, State.getV { s.advancePc with v := f } q = if q ≤ x then s.byteAt (s.i.toNat + q.val) else s.getV q := by
  by_cases h : 4096 < s.i.toNat + (x.val + 1)
  · rw [if_pos h]
    exact State.execute_error (by simp [checkRange_at_i, h])
  · rw [if_neg h]
    obtain ⟨f, hf, hg⟩ := State.loadFromI_of_lt (regsThrough x) s.advancePc (fun r hr => by
      have := Fin.le_def.mp (mem_regsThrough.mp hr)
      simp only [State.advancePc_i]; omega)
    refine ⟨f, State.execute_ok ?_, fun q => ?_⟩
    · simp only [checkRange_at_i, State.advancePc_i, h, false_and, if_false]
      exact hf
    · simpa [mem_regsThrough] using hg q

/-- The cells that `DRW Vx, Vy, n` toggles in a state. -/
def drawnCells (x y : Reg) (n : Nibble) (s : State) : List (Column × Row) :=
  spriteCells s ((s.getV x).toNat % 64) ((s.getV y).toNat % 32) (List.range n.toNat)

theorem nodup_drawnCells (x y : Reg) (n : Nibble) (s : State) : (drawnCells x y n s).Nodup :=
  nodup_spriteCells _ _ _ _ (by have := n.isLt; omega)

/-- Dxyn: a fault, or VF cleared and the sprite's cells toggled (R182). -/
theorem execDrw_eq (x y : Reg) (n : Nibble) (s : State) :
    execDrw x y n s = .next (if 4096 < s.i.toNat + n.toNat ∧ 0 < n.toNat then s.takeFault (encode (.drw x y n)) ⟨.memoryBounds, s.i⟩
      else (s.advancePc.setV vF 0).drawCells (drawnCells x y n s)) := by
  by_cases h : 4096 < s.i.toNat + n.toNat ∧ 0 < n.toNat
  · rw [if_pos h]
    exact State.execute_error (by simp [checkRange_at_i, h])
  · rw [if_neg h]
    refine State.execute_ok ?_
    simp only [checkRange_at_i, State.advancePc_i, h, if_false]
    refine State.drawRows_of_lt _ _ _ _ (fun r hr => ?_)
    have := List.mem_range.mp hr
    simp only [State.setV_i, State.advancePc_i]
    omega

/-- Fx0A: the lowest pressed key, or PC at the instruction again (R203). -/
theorem execLdVxK_eq (x : Reg) (s : State) :
    execLdVxK x s = .next (match s.firstKey with
      | some k => s.advancePc.setV x (BitVec.ofNat 8 k.val)
      | none => s.advancePc.setPc (s.advancePc.pc - 2)) := by
  unfold execLdVxK
  split <;> simp [*]

/-- The scan for a pressed key finds the lowest, or there is none (R203). -/
theorem State.firstKey_cases (s : State) :
    (∃ k, s.firstKey = some k ∧ s.keyDown k = true ∧ ∀ j < k, s.keyDown j = false) ∨
      (s.firstKey = none ∧ ∀ k, s.keyDown k = false) := by
  cases h : s.firstKey with
  | none => exact .inr ⟨rfl, fun k => by simpa using List.find?_eq_none.mp h k (List.mem_finRange k)⟩
  | some k =>
    obtain ⟨hk, before, after, hl, hno⟩ := List.find?_eq_some_iff_append.mp h
    refine .inl ⟨k, rfl, hk, fun j hj => ?_⟩
    have hs : List.Pairwise (· < ·) (List.finRange 16) := by decide
    rw [hl] at hs
    rcases List.mem_append.mp (show j ∈ before ++ k :: after from hl ▸ List.mem_finRange j) with h1 | h1
    · simpa using hno j h1
    · rcases List.mem_cons.mp h1 with rfl | h2
      · exact absurd hj (lt_irrefl _)
      · exact absurd hj (not_lt_of_gt ((List.pairwise_cons.mp (List.pairwise_append.mp hs).2.1).1 j h2))

/-! ### The dispatcher -/

/-- Every instruction answers a next state, in every state: no fault of the interface and no refusal. -/
theorem exec_next (i : Instr) (s : State) : ∃ t, exec i s = .next t := by
  cases i
  case ret => exact ⟨_, execRet_eq s⟩
  case call nnn => exact ⟨_, execCall_eq nnn s⟩
  case skp x => exact ⟨_, execSkp_eq x s⟩
  case sknp x => exact ⟨_, execSknp_eq x s⟩
  case ldB x => exact ⟨_, execLdB_eq x s⟩
  case storeRegs x => exact ⟨_, execStoreRegs_eq x s⟩
  case drw x y n => exact ⟨_, execDrw_eq x y n s⟩
  case loadRegs x =>
    have h := execLoadRegs_eq x s
    split at h
    · exact ⟨_, h⟩
    · exact ⟨_, h.choose_spec.1⟩
  case ldVxK x => exact ⟨_, execLdVxK_eq x s⟩
  all_goals exact ⟨_, rfl⟩

/-- The execute step answers a next state for every word. -/
theorem execWord_next (w : Word) (s : State) : ∃ t, execWord w s = .next t := by
  rw [execWord_eq]
  split
  · exact exec_next _ _
  · exact ⟨_, rfl⟩

/-- What follows an execute step that answered (R83, R223). -/
theorem finishCycle_next (t : State) : finishCycle (.next t) = .next (if t.fault = none then t.endCycle else t) := by
  cases h : t.fault <;> simp [finishCycle, h]

/-- Every cycle answers a next state. -/
theorem cycle_next (s : State) : ∃ t, cycle s = .next t := by
  by_cases hf : s.fault.isSome = true
  · exact ⟨_, cycle_of_faulted hf⟩
  · have hn : s.fault = none := by simpa using hf
    by_cases he : s.exhausted = true
    · exact ⟨_, cycle_of_exhausted hn he⟩
    · obtain ⟨u, hu⟩ := execWord_next s.fetchWord s
      rw [cycle_of_running hn (by simpa using he), hu]
      exact ⟨_, finishCycle_next u⟩

/-- Every event answers a next state. -/
theorem event_next (e : Event) (s : State) : ∃ t, event e s = .next t := by
  cases e with
  | cycle => exact cycle_next s
  | cycleWith due rnd => exact cycle_next _
  | host op => exact ⟨_, rfl⟩

end Sys2Proof.Machine
end

