-- ==== Sys2Proof/Laws/Ports.lean ====
section
/-! SUPPORT. The host ports, one lemma for each check (spec/60_exceptions.md R226, R233, R234, spec/43_display.md R184). -/

namespace Sys2Proof.Machine

theorem keyIndex_of_mem {k : Int} (h : 0 ≤ k ∧ k ≤ 15) : keyIndex k = .ok ⟨k.toNat, show k.toNat < 16 by omega⟩ := by
  unfold keyIndex
  rw [dif_pos ⟨h.1, show k < 16 by omega⟩]

theorem keyIndex_of_not_mem {k : Int} (h : ¬(0 ≤ k ∧ k ≤ 15)) : keyIndex k = .error .invalidKeyIndex := by
  unfold keyIndex
  rw [dif_neg]
  rintro ⟨h0, h1⟩
  exact h ⟨h0, Int.lt_add_one_iff.mp h1⟩

/-- pixelAt inside the screen. -/
theorem portPixelAt_coe (px : Column) (py : Row) (s : State) : portPixelAt px.val py.val s = .ok (s.pixel px py) := by
  unfold portPixelAt
  rw [dif_pos ⟨⟨Int.natCast_nonneg _, Int.ofNat_lt.mpr px.isLt⟩, ⟨Int.natCast_nonneg _, Int.ofNat_lt.mpr py.isLt⟩⟩]
  rfl

/-- pixelAt outside it. -/
theorem portPixelAt_outside {x y : Int} (s : State) (h : x < 0 ∨ 63 < x ∨ y < 0 ∨ 31 < y) : portPixelAt x y s = .error .outOfBounds := by
  unfold portPixelAt
  rw [dif_neg]
  rintro ⟨⟨h1, h2⟩, ⟨h3, h4⟩⟩
  have h2' : x < 64 := h2
  have h4' : y < 32 := h4
  omega

/-- The status port. -/
theorem portStatus_eq (s : State) : portStatus s = { pc := s.pc, exhausted := decide (0x0FFE < s.pc.toNat), fault := s.fault } := by
  simp [portStatus, State.exhausted, BitVec.lt_def]

end Sys2Proof.Machine
end

