-- ==== Sys2Proof/Laws/Frames.lean ====
section
/-! SUPPORT. Working with frames: `ChangesOnly` part by part, the frame of a taken fault, and the words an instruction's statement names. -/

namespace Sys2Proof.Machine

variable {ps qs : List Part} {s t u : State}

/-- A frame, part by part: with a concrete list, `simp [changesOnly_iff]` leaves one equation per part that is not listed. -/
theorem changesOnly_iff : ChangesOnly ps s t ↔
    (Part.v ∉ ps → ∀ r, t.getV r = s.getV r) ∧ (Part.i ∉ ps → t.i = s.i) ∧ (Part.pc ∉ ps → t.pc = s.pc) ∧
    (Part.stack ∉ ps → t.stack = s.stack) ∧ (Part.dt ∉ ps → t.dt = s.dt) ∧ (Part.st ∉ ps → t.st = s.st) ∧
    (Part.key ∉ ps → ∀ k, t.keyDown k = s.keyDown k) ∧ (Part.fb ∉ ps → ∀ x y, t.pixel x y = s.pixel x y) ∧
    (Part.mem ∉ ps → ∀ a, t.byteAt a = s.byteAt a) ∧ (Part.fault ∉ ps → t.fault = s.fault) ∧
    (Part.inputs ∉ ps → t.due = s.due ∧ t.rnd = s.rnd ∧ t.draws = s.draws) :=
  ⟨fun h => ⟨h .v, h .i, h .pc, h .stack, h .dt, h .st, h .key, h .fb, h .mem, h .fault, h .inputs⟩, fun h p hp => by
    obtain ⟨h1, h2, h3, h4, h5, h6, h7, h8, h9, h10, h11⟩ := h
    cases p
    exacts [h1 hp, h2 hp, h3 hp, h4 hp, h5 hp, h6 hp, h7 hp, h8 hp, h9 hp, h10 hp, h11 hp]⟩

theorem ChangesOnly.refl (ps : List Part) (s : State) : ChangesOnly ps s s := by
  simp [changesOnly_iff]

theorem ChangesOnly.mono (h : ChangesOnly ps s t) (hs : ps ⊆ qs) : ChangesOnly qs s t :=
  fun p hp => h p (fun hm => hp (hs hm))

theorem ChangesOnly.trans (h : ChangesOnly ps s t) (h' : ChangesOnly ps t u) : ChangesOnly ps s u := by
  intro p hp
  have h1 := h p hp
  have h2 := h' p hp
  cases p <;> simp_all [Part.same]

/-- A taken fault changes FAULT only (R223). -/
theorem faultTaken_takeFault (s : State) (w : Word) (e : Raise) : FaultTaken e.cause w e.info s (s.takeFault w e) :=
  ⟨rfl, by simp [changesOnly_iff]⟩

/-- A drawn sprite writes VF and FB only: as one record update (R182). -/
theorem drawnCells_eq (x y : Reg) (n : Nibble) (s : State) :
    ∃ f g, (s.advancePc.setV vF 0).drawCells (drawnCells x y n s) = { s.advancePc with v := f, fb := g } :=
  (s.advancePc.setV vF 0).drawCells_eq (drawnCells x y n s)

end Sys2Proof.Machine

namespace Sys2Proof

/-! The word of a pattern of R86, as the number its nibbles spell. -/

theorem ofNat_eq_packNNN {k : Nat} {op : BitVec 4} (hk : k = 0x1000 * op.toNat) (nnn : Imm12) :
    BitVec.ofNat 16 (k + nnn.toNat) = packNNN op nnn := by
  rw [packNNN_eq_ofNat, hk]

theorem ofNat_eq_packXNN {k : Nat} {op : BitVec 4} (hk : k = 0x1000 * op.toNat) (x : Reg) (nn : Byte) :
    BitVec.ofNat 16 (k + 0x100 * x.val + nn.toNat) = packXNN op x nn := by
  rw [packXNN_eq_ofNat, hk]

theorem ofNat_eq_packXNN_const {k : Nat} {op : BitVec 4} {nn : Byte} (hk : k = 0x1000 * op.toNat + nn.toNat) (x : Reg) :
    BitVec.ofNat 16 (k + 0x100 * x.val) = packXNN op x nn := by
  rw [packXNN_eq_ofNat, hk]; congr 1; omega

theorem ofNat_eq_packXYN {k : Nat} {op : BitVec 4} (hk : k = 0x1000 * op.toNat) (x y : Reg) (n : Nibble) :
    BitVec.ofNat 16 (k + 0x100 * x.val + 0x10 * y.val + n.toNat) = packXYN op x y n := by
  rw [packXYN_eq_ofNat, hk]

theorem ofNat_eq_packXYN_const {k : Nat} {op : BitVec 4} {n : Nibble} (hk : k = 0x1000 * op.toNat + n.toNat) (x y : Reg) :
    BitVec.ofNat 16 (k + 0x100 * x.val + 0x10 * y.val) = packXYN op x y n := by
  rw [packXYN_eq_ofNat, hk]; congr 1; omega

/-! The fields of a word as numbers (R80). -/

theorem toNat_fieldOp (w : Word) : (fieldOp w).toNat = w.toNat / 4096 := by
  have := w.isLt
  simp [fieldOp, BitVec.extractLsb'_toNat, Nat.shiftRight_eq_div_pow]; omega

theorem toNat_fieldN (w : Word) : (fieldN w).toNat = w.toNat % 16 := by
  simp [fieldN, BitVec.extractLsb'_toNat]

theorem toNat_fieldNN (w : Word) : (fieldNN w).toNat = w.toNat % 256 := by
  simp [fieldNN, BitVec.extractLsb'_toNat]

theorem toNat_fieldNNN (w : Word) : (fieldNNN w).toNat = w.toNat % 4096 := by
  simp [fieldNNN, BitVec.extractLsb'_toNat]

end Sys2Proof
end

