-- ==== Sys2Proof/Laws/PerInstr.lean ====
section
/-! SUPPORT. Statements for all instructions, one lemma per instruction: the encoder's word of an instruction matches its own row of
spec/30_encoding.md R86 under the row's mask, whatever its operands. -/

namespace Sys2Proof.Laws.OpcodeRow

/-- The word of `i` matches the row of `i`. -/
def Statement (i : Instr) : Prop := encode i &&& (opcodeRow i).1 = (opcodeRow i).2

/-- A word under a mask that is `p` bit by bit is `p`. -/
theorem and_eq_of_bits {w m p : Word} (h : ∀ k < 16, (w.getLsbD k && m.getLsbD k) = p.getLsbD k) : w &&& m = p := by
  apply BitVec.eq_of_getLsbD_eq
  intro k hk
  rw [BitVec.getLsbD_and]
  exact h k hk

theorem packNNN_matches (op : BitVec 4) (nnn : Imm12) : packNNN op nnn &&& 0xF000 = packNNN op 0 := by
  refine and_eq_of_bits fun k hk => ?_
  simp only [getLsbD_packNNN _ _ k hk]
  interval_cases k <;> simp

theorem packXNN_matches (op : BitVec 4) (x : Reg) (nn : Byte) : packXNN op x nn &&& 0xF000 = packXNN op 0 0 := by
  refine and_eq_of_bits fun k hk => ?_
  simp only [getLsbD_packXNN _ _ _ k hk]
  interval_cases k <;> simp

theorem packXNN_matches_nn (op : BitVec 4) (x : Reg) (nn : Byte) : packXNN op x nn &&& 0xF0FF = packXNN op 0 nn := by
  refine and_eq_of_bits fun k hk => ?_
  simp only [getLsbD_packXNN _ _ _ k hk]
  interval_cases k <;> simp

theorem packXYN_matches (op : BitVec 4) (x y : Reg) (n : Nibble) : packXYN op x y n &&& 0xF000 = packXYN op 0 0 0 := by
  refine and_eq_of_bits fun k hk => ?_
  simp only [getLsbD_packXYN _ _ _ _ k hk]
  interval_cases k <;> simp

theorem packXYN_matches_n (op : BitVec 4) (x y : Reg) (n : Nibble) : packXYN op x y n &&& 0xF00F = packXYN op 0 0 n := by
  refine and_eq_of_bits fun k hk => ?_
  simp only [getLsbD_packXYN _ _ _ _ k hk]
  interval_cases k <;> simp

theorem cls : Statement .cls := by unfold Statement; decide
theorem ret : Statement .ret := by unfold Statement; decide
theorem sys (nnn : Imm12) : Statement (.sys nnn) := (packNNN_matches 0x0 nnn).trans rfl
theorem jp (nnn : Imm12) : Statement (.jp nnn) := (packNNN_matches 0x1 nnn).trans rfl
theorem call (nnn : Imm12) : Statement (.call nnn) := (packNNN_matches 0x2 nnn).trans rfl
theorem seImm (x : Reg) (nn : Byte) : Statement (.seImm x nn) := (packXNN_matches 0x3 x nn).trans rfl
theorem sneImm (x : Reg) (nn : Byte) : Statement (.sneImm x nn) := (packXNN_matches 0x4 x nn).trans rfl
theorem seReg (x y : Reg) : Statement (.seReg x y) := (packXYN_matches_n 0x5 x y 0x0).trans rfl
theorem ldImm (x : Reg) (nn : Byte) : Statement (.ldImm x nn) := (packXNN_matches 0x6 x nn).trans rfl
theorem addImm (x : Reg) (nn : Byte) : Statement (.addImm x nn) := (packXNN_matches 0x7 x nn).trans rfl
theorem ldReg (x y : Reg) : Statement (.ldReg x y) := (packXYN_matches_n 0x8 x y 0x0).trans rfl
theorem orReg (x y : Reg) : Statement (.orReg x y) := (packXYN_matches_n 0x8 x y 0x1).trans rfl
theorem andReg (x y : Reg) : Statement (.andReg x y) := (packXYN_matches_n 0x8 x y 0x2).trans rfl
theorem xorReg (x y : Reg) : Statement (.xorReg x y) := (packXYN_matches_n 0x8 x y 0x3).trans rfl
theorem addReg (x y : Reg) : Statement (.addReg x y) := (packXYN_matches_n 0x8 x y 0x4).trans rfl
theorem sub (x y : Reg) : Statement (.sub x y) := (packXYN_matches_n 0x8 x y 0x5).trans rfl
theorem shr (x y : Reg) : Statement (.shr x y) := (packXYN_matches_n 0x8 x y 0x6).trans rfl
theorem subn (x y : Reg) : Statement (.subn x y) := (packXYN_matches_n 0x8 x y 0x7).trans rfl
theorem shl (x y : Reg) : Statement (.shl x y) := (packXYN_matches_n 0x8 x y 0xE).trans rfl
theorem sneReg (x y : Reg) : Statement (.sneReg x y) := (packXYN_matches_n 0x9 x y 0x0).trans rfl
theorem ldI (nnn : Imm12) : Statement (.ldI nnn) := (packNNN_matches 0xA nnn).trans rfl
theorem jpV0 (nnn : Imm12) : Statement (.jpV0 nnn) := (packNNN_matches 0xB nnn).trans rfl
theorem rnd (x : Reg) (nn : Byte) : Statement (.rnd x nn) := (packXNN_matches 0xC x nn).trans rfl
theorem drw (x y : Reg) (n : Nibble) : Statement (.drw x y n) := (packXYN_matches 0xD x y n).trans rfl
theorem skp (x : Reg) : Statement (.skp x) := (packXNN_matches_nn 0xE x 0x9E).trans rfl
theorem sknp (x : Reg) : Statement (.sknp x) := (packXNN_matches_nn 0xE x 0xA1).trans rfl
theorem ldVxDt (x : Reg) : Statement (.ldVxDt x) := (packXNN_matches_nn 0xF x 0x07).trans rfl
theorem ldVxK (x : Reg) : Statement (.ldVxK x) := (packXNN_matches_nn 0xF x 0x0A).trans rfl
theorem ldDtVx (x : Reg) : Statement (.ldDtVx x) := (packXNN_matches_nn 0xF x 0x15).trans rfl
theorem ldStVx (x : Reg) : Statement (.ldStVx x) := (packXNN_matches_nn 0xF x 0x18).trans rfl
theorem addI (x : Reg) : Statement (.addI x) := (packXNN_matches_nn 0xF x 0x1E).trans rfl
theorem ldF (x : Reg) : Statement (.ldF x) := (packXNN_matches_nn 0xF x 0x29).trans rfl
theorem ldB (x : Reg) : Statement (.ldB x) := (packXNN_matches_nn 0xF x 0x33).trans rfl
theorem storeRegs (x : Reg) : Statement (.storeRegs x) := (packXNN_matches_nn 0xF x 0x55).trans rfl
theorem loadRegs (x : Reg) : Statement (.loadRegs x) := (packXNN_matches_nn 0xF x 0x65).trans rfl

end Sys2Proof.Laws.OpcodeRow
end

