-- ==== Sys2Proof/Tests/Slice0.lean ====
section
/-! SUPPORT. Tests: well-formedness, decoding of words written out from the patterns of spec/30_encoding.md R86, one step on small states with
the results of spec/95_test_vectors.md, the host ports, and a witness for the hypotheses of each statement of Certificates/Slice0. -/

namespace Sys2Proof.Tests

open Sys2Proof.Machine

/-! ### Well-formedness: SYS is no second name of CLS or RET (R86) -/

theorem test_wf_refuses_sys_0E0 : Instr.wf (.sys 0x0E0) = false := by decide

theorem test_wf_refuses_sys_0EE : Instr.wf (.sys 0x0EE) = false := by decide

theorem test_wf_takes_sys_0E1 : Instr.wf (.sys 0x0E1) = true := by decide

/-! ### Decoding: one word of every row, then the no-op words (R86, R87) -/

theorem test_decode_group_0 : decode 0x00E0 = .ok .cls ∧ decode 0x00EE = .ok .ret ∧ decode 0x0123 = .ok (.sys 0x123) ∧
    decode 0x00E1 = .ok (.sys 0x0E1) ∧ decode 0x01E0 = .ok (.sys 0x1E0) := by decide

theorem test_decode_jumps : decode 0x1234 = .ok (.jp 0x234) ∧ decode 0x2FED = .ok (.call 0xFED) ∧ decode 0xB300 = .ok (.jpV0 0x300) := by
  decide

theorem test_decode_skips : decode 0x3105 = .ok (.seImm 1 5) ∧ decode 0x4AFF = .ok (.sneImm 10 255) ∧ decode 0x5120 = .ok (.seReg 1 2) ∧
    decode 0x9AB0 = .ok (.sneReg 10 11) := by decide

theorem test_decode_immediates : decode 0x6A7E = .ok (.ldImm 10 0x7E) ∧ decode 0x7F01 = .ok (.addImm 15 1) ∧ decode 0xC10F = .ok (.rnd 1 0x0F) := by
  decide

theorem test_decode_group_8 : decode 0x8120 = .ok (.ldReg 1 2) ∧ decode 0x8121 = .ok (.orReg 1 2) ∧ decode 0x8122 = .ok (.andReg 1 2) ∧
    decode 0x8123 = .ok (.xorReg 1 2) ∧ decode 0x8124 = .ok (.addReg 1 2) ∧ decode 0x8125 = .ok (.sub 1 2) ∧ decode 0x8126 = .ok (.shr 1 2) ∧
    decode 0x8127 = .ok (.subn 1 2) ∧ decode 0x812E = .ok (.shl 1 2) := by decide

theorem test_decode_index_and_draw : decode 0xA123 = .ok (.ldI 0x123) ∧ decode 0xD125 = .ok (.drw 1 2 5) := by decide

theorem test_decode_keys : decode 0xE19E = .ok (.skp 1) ∧ decode 0xE1A1 = .ok (.sknp 1) ∧ decode 0xF50A = .ok (.ldVxK 5) := by decide

theorem test_decode_group_F : decode 0xF107 = .ok (.ldVxDt 1) ∧ decode 0xF115 = .ok (.ldDtVx 1) ∧ decode 0xF118 = .ok (.ldStVx 1) ∧
    decode 0xF11E = .ok (.addI 1) ∧ decode 0xF129 = .ok (.ldF 1) ∧ decode 0xF333 = .ok (.ldB 3) ∧ decode 0xFF55 = .ok (.storeRegs 15) ∧
    decode 0xF265 = .ok (.loadRegs 2) := by decide

theorem test_decode_no_op_words : decode 0x5121 = .error .group5 ∧ decode 0x8008 = .error .group8 ∧ decode 0x812F = .error .group8 ∧
    decode 0x912F = .error .group9 ∧ decode 0xE000 = .error .groupE ∧ decode 0xF000 = .error .groupF ∧ decode 0xF0FF = .error .groupF ∧
    decode 0xFF1F = .error .groupF ∧ decode 0xF01A = .error .groupF := by decide

theorem test_table_word : decodeTableWord 16 0xD125 = some (.drw 1 2 5) ∧ decodeTableWord 16 0x8008 = none := by decide

/-! ### One cycle. The vectors of spec/95_test_vectors.md: the Reset state with due = false and rnd = 0, the word at PC -/

/-- The start state of the vectors. -/
def start : State := State.reset.setInputs false 0 1

/-- Is the outcome a next state with the property? -/
def answers (o : Outcome) (p : State → Bool) : Bool :=
  match o with
  | .next t => p t
  | _ => false

/-- Does the cycle that runs the word `w` at PC end in a state with the property? -/
def after (w : Nat) (s : State) (p : State → Bool) : Bool := answers (step (s.withFetchWord 16 w)) p

/-- The state with these bytes from `a` on. -/
def bytesAt (s : State) (a : Nat) (bytes : List Byte) : State := s.setMem (s.mem.writeAll a bytes)

/-- FAULT as a vector writes it. -/
def faultIs (t : State) (cause : Cause) (word info : Word) : Bool :=
  t.fault == some { cause := cause, pc := 0x200, word := word, info := info }

/-! Control flow: CF1, CF3, CF4, CF5, CF6, CF7–CF11, CF13–CF16, DC1 -/

theorem test_sys_only_advances : after 0x0123 start (fun t => t.pc == 0x202 && t.fault == none) = true := by decide

theorem test_jp : after 0x1201 start (fun t => t.pc == 0x201) = true := by decide

theorem test_call_pushes : after 0x2400 start (fun t => t.pc == 0x400 && t.stack == [0x202]) = true := by decide

theorem test_call_full_stack : after 0x2400 (start.setStack (List.replicate 16 0x300))
    (fun t => faultIs t .stackOverflow 0x2400 16 && t.pc == 0x200 && t.stack == List.replicate 16 0x300) = true := by decide

theorem test_ret_pops : after 0x00EE (start.setStack [0x206, 0x300]) (fun t => t.pc == 0x206 && t.stack == [0x300]) = true := by
  decide

theorem test_ret_empty_stack : after 0x00EE ((start.setInputs true 0 1).setDt 5)
    (fun t => faultIs t .stackUnderflow 0x00EE 0 && t.pc == 0x200 && t.dt == 5) = true := by decide

theorem test_se_imm_skips : after 0x3105 (start.setV 1 5) (fun t => t.pc == 0x204) = true := by decide

theorem test_se_imm_no_skip : after 0x3105 (start.setV 1 6) (fun t => t.pc == 0x202) = true := by decide

theorem test_sne_imm_no_skip : after 0x4105 (start.setV 1 5) (fun t => t.pc == 0x202) = true := by decide

theorem test_sne_imm_skips : after 0x4105 (start.setV 1 6) (fun t => t.pc == 0x204) = true := by decide

theorem test_se_reg_skips : after 0x5120 ((start.setV 1 3).setV 2 3) (fun t => t.pc == 0x204) = true := by decide

theorem test_sne_reg_no_skip : after 0x9120 ((start.setV 1 3).setV 2 3) (fun t => t.pc == 0x202) = true := by decide

theorem test_sne_reg_skips : after 0x9120 ((start.setV 1 3).setV 2 4) (fun t => t.pc == 0x204) = true := by decide

theorem test_jp_v0 : after 0xBFFF (start.setV 0 0xFF) (fun t => t.pc == 0x10FE && t.exhausted) = true := by decide

/-! ALU: E1, E2, E3, E4, AL1–AL27 -/

theorem test_ld_imm : after 0x6A7E start (fun t => t.getV 10 == 0x7E && t.pc == 0x202) = true := by decide

theorem test_add_imm_wraps : after 0x7105 (start.setV 1 0xFE) (fun t => t.getV 1 == 3 && t.getV 15 == 0) = true := by decide

theorem test_ld_reg : after 0x8120 ((start.setV 1 0x11).setV 2 0x22) (fun t => t.getV 1 == 0x22 && t.getV 2 == 0x22) = true := by
  decide

theorem test_or : after 0x8121 (((start.setV 1 0x0F).setV 2 0xF0).setV 15 7) (fun t => t.getV 1 == 0xFF && t.getV 15 == 7) = true := by
  decide

theorem test_and : after 0x8122 (((start.setV 1 0x3C).setV 2 0x0F).setV 15 7) (fun t => t.getV 1 == 0x0C && t.getV 15 == 7) = true := by
  decide

theorem test_xor : after 0x8123 (((start.setV 1 0xFF).setV 2 0x0F).setV 15 7) (fun t => t.getV 1 == 0xF0 && t.getV 15 == 7) = true := by
  decide

theorem test_add_carry : after 0x8124 ((start.setV 1 0xFF).setV 2 1) (fun t => t.getV 1 == 0 && t.getV 15 == 1) = true := by decide

theorem test_add_into_flag : after 0x8F14 ((start.setV 15 0x10).setV 1 0x20) (fun t => t.getV 15 == 0x30) = true := by decide

theorem test_sub_equal : after 0x8125 ((start.setV 1 7).setV 2 7) (fun t => t.getV 1 == 0 && t.getV 15 == 0) = true := by decide

theorem test_sub_reads_new_flag : after 0x81F5 ((start.setV 1 5).setV 15 3) (fun t => t.getV 1 == 4 && t.getV 15 == 1) = true := by
  decide

theorem test_shr : after 0x8126 ((start.setV 1 3).setV 2 0x55) (fun t => t.getV 1 == 1 && t.getV 2 == 0x55 && t.getV 15 == 1) = true := by
  decide

theorem test_shr_flag : after 0x8F06 (start.setV 15 3) (fun t => t.getV 15 == 0) = true := by decide

theorem test_subn : after 0x8127 ((start.setV 1 5).setV 2 10) (fun t => t.getV 1 == 5 && t.getV 15 == 1) = true := by decide

theorem test_subn_reads_new_flag : after 0x81F7 ((start.setV 1 3).setV 15 5) (fun t => t.getV 1 == 0xFE && t.getV 15 == 1) = true := by
  decide

theorem test_shl : after 0x812E (start.setV 1 0x81) (fun t => t.getV 1 == 2 && t.getV 15 == 1) = true := by decide

theorem test_shl_flag : after 0x8F0E (start.setV 15 0x81) (fun t => t.getV 15 == 2) = true := by decide

theorem test_rnd : after 0xC10F (start.setInputs false 0xAB 1) (fun t => t.getV 1 == 0x0B) = true := by decide

/-! Index and memory: IM1–IM17 -/

theorem test_ld_i : after 0xA123 start (fun t => t.i == 0x123 && t.pc == 0x202) = true := by decide

theorem test_add_i_wraps : after 0xF11E ((start.setI 0xFFFF).setV 1 2) (fun t => t.i == 1 && t.getV 15 == 0) = true := by decide

theorem test_ld_f_not_masked : after 0xF129 (start.setV 1 0xFF) (fun t => t.i == 0x4FB) = true := by decide

theorem test_bcd_at_the_end : after 0xF133 ((start.setV 1 7).setI 0xFFD)
    (fun t => t.byteAt 0xFFD == 0 && t.byteAt 0xFFE == 0 && t.byteAt 0xFFF == 7 && t.i == 0xFFD) = true := by decide

theorem test_bcd_past_the_end : after 0xF133 ((start.setV 1 7).setI 0xFFE)
    (fun t => faultIs t .memoryBounds 0xF133 0xFFE && t.byteAt 0xFFF == 0 && t.pc == 0x200) = true := by decide

theorem test_store_regs : after 0xF355 (((((start.setV 0 1).setV 1 2).setV 2 3).setV 3 4).setV 4 9 |>.setI 0x400)
    (fun t => t.byteAt 0x400 == 1 && t.byteAt 0x403 == 4 && t.byteAt 0x404 == 0 && t.i == 0x400) = true := by decide

theorem test_store_regs_past_the_end : after 0xF155 (((start.setV 0 1).setV 1 2).setI 0xFFF)
    (fun t => faultIs t .memoryBounds 0xF155 0xFFF && t.byteAt 0xFFF == 0) = true := by decide

theorem test_load_regs : after 0xF265 ((bytesAt start 0x400 [9, 8, 7, 6]).setV 3 0x77 |>.setI 0x400)
    (fun t => t.getV 0 == 9 && t.getV 1 == 8 && t.getV 2 == 7 && t.getV 3 == 0x77 && t.i == 0x400) = true := by decide

theorem test_load_regs_past_the_end : after 0xF165 (start.setI 0xFFF) (fun t => faultIs t .memoryBounds 0xF165 0xFFF) = true := by
  decide

/-! Display: DS1, DS4, DS8 -/

theorem test_cls : after 0x00E0 ((start.setPixel 0 0 true).setPixel 63 31 true)
    (fun t => !t.pixel 0 0 && !t.pixel 63 31 && t.pc == 0x202) = true := by decide

theorem test_drw_wraps : after 0xD121 ((bytesAt start 0x300 [0xF0]).setV 1 62 |>.setV 2 31 |>.setI 0x300)
    (fun t => t.pixel 62 31 && t.pixel 63 31 && t.pixel 0 31 && t.pixel 1 31 && !t.pixel 2 31 && !t.pixel 0 0 && t.getV 15 == 0) = true := by
  decide

theorem test_drw_past_the_end : after 0xD122 ((start.setV 15 1).setPixel 0 0 true |>.setI 0xFFF)
    (fun t => faultIs t .memoryBounds 0xD122 0xFFF && t.getV 15 == 1 && t.pixel 0 0) = true := by decide

/-! Timers and keys: TK2, TK3, TK5, TK8–TK16 -/

theorem test_ld_vx_dt_before_timer_step : after 0xF107 ((start.setInputs true 0 1).setDt 0x2A)
    (fun t => t.getV 1 == 0x2A && t.dt == 0x29) = true := by decide

theorem test_ld_dt_then_timer_step : after 0xF115 ((start.setInputs true 0 1).setV 1 10) (fun t => t.dt == 9) = true := by decide

theorem test_ld_st_then_timer_step : after 0xF118 ((start.setInputs true 0 1).setV 1 1) (fun t => t.st == 0 && !soundOn t) = true := by
  decide

theorem test_key_wait_lowest : after 0xF50A ((start.putKey 3 true).putKey 7 true) (fun t => t.getV 5 == 3 && t.pc == 0x202) = true := by
  decide

theorem test_key_wait_rewinds : after 0xF50A ((start.setInputs true 0 1).setV 5 0x44 |>.setDt 4)
    (fun t => t.getV 5 == 0x44 && t.pc == 0x200 && t.dt == 3) = true := by decide

theorem test_skp_pressed : after 0xE19E ((start.setV 1 15).putKey 15 true) (fun t => t.pc == 0x204) = true := by decide

theorem test_skp_no_key : after 0xE19E (start.setV 1 0x10) (fun t => faultIs t .invalidKeyIndex 0xE19E 0x10 && t.pc == 0x200) = true := by
  decide

theorem test_sknp_pressed : after 0xE1A1 ((start.setV 1 4).putKey 4 true) (fun t => t.pc == 0x202) = true := by decide

theorem test_sknp_no_key : after 0xE1A1 (start.setV 1 0xFF) (fun t => faultIs t .invalidKeyIndex 0xE1A1 0xFF) = true := by decide

/-! Cycles that run no instruction: AL28, CF19, DC8, DC9 -/

theorem test_no_op_word : after 0x8128 ((start.setV 1 1).setV 2 2 |>.setV 15 9)
    (fun t => t.pc == 0x202 && t.getV 1 == 1 && t.getV 15 == 9) = true := by decide

theorem test_exhausted_cycle : step ((start.setPc 0xFFF).setDt 5 |>.setInputs true 0 1) =
    .next ((start.setPc 0xFFF).setDt 5 |>.setInputs true 0 1) := rfl

/-- The parameters with TIMERS_TICK_WHEN_EXHAUSTED = true (decision D8). -/
def ticking : Config := { hw with timersTickWhenExhausted := true }

theorem test_exhausted_cycle_ticks : answers (cycle ((start.setPc 0xFFF).setDt 5 |>.setInputs true 0 1) ticking)
    (fun t => t.dt == 4 && t.st == 0 && t.pc == 0xFFF) = true := by decide

/-- The parameters with STACK_DEPTH = 1. -/
def shallow : Config := { hw with stackDepth := 1 }

theorem test_stack_depth_is_a_parameter : answers (cycle (((start.setStack [0x300]).withFetchWord 16 0x2400)) shallow)
    (fun t => faultIs t .stackOverflow 0x2400 1) = true := by decide

theorem test_last_fetch : answers (step ((bytesAt start 0xFFE [0x61, 0x22]).setPc 0xFFE))
    (fun t => t.getV 1 == 0x22 && t.pc == 0x1000 && t.exhausted) = true := by decide

/-! ### Host ports: DS12, TK17, DC10–DC13 -/

theorem test_rom_too_large : (hostOp (.loadRom (List.replicate 0xE01 0)) start).2 = .error .romTooLarge := by
  decide +kernel

theorem test_rom_of_full_size : (hostOp (.loadRom (List.replicate 0xE00 0)) start).2 = .done := by
  decide +kernel

theorem test_load_rom : (let t := (hostOp (.loadRom [0x12, 0x34]) ((bytesAt start 0x300 [0x55]).setV 1 7 |>.setPc 0x250)).1
    t.byteAt 0x200 == 0x12 && t.byteAt 0x201 == 0x34 && t.byteAt 0x300 == 0 && t.getV 1 == 7 && t.pc == 0x250) = true := by decide

theorem test_hex_text : hostOp (.loadRomFromHexText ['0', '0', 'e', '0', ' ', '1', '2', '\n', '0', '0']) start =
    hostOp (.loadRom [0x00, 0xE0, 0x12, 0x00]) start := by decide

theorem test_hex_text_odd : hostOp (.loadRomFromHexText ['0', 'E', '0']) start = (start, .error .invalidHexEncoding) := by decide

theorem test_set_key_16 : hostOp (.setKey 16 true) start = (start, .error .invalidKeyIndex) := by decide

theorem test_key_minus_1 : hostOp (.isKeyPressed (-1)) start = (start, .error .invalidKeyIndex) := by decide

theorem test_set_key_15 : (hostOp (.isKeyPressed 15) (hostOp (.setKey 15 true) start).1).2 = .bool true := by decide

theorem test_pixel_out_of_bounds : (hostOp (.pixelAt 64 0) start).2 = .error .outOfBounds ∧
    (hostOp (.pixelAt 0 32) start).2 = .error .outOfBounds ∧ (hostOp (.pixelAt 63 31) start).2 = .bool false := by decide

theorem test_mem_at : (hostOp (.memAt 0xFFF) start).2 = .byte 0 ∧ (hostOp (.memAt 0x1000) start).2 = .error .outOfBounds ∧
    (hostOp (.memAt (-1)) start).2 = .error .outOfBounds ∧ (hostOp (.memAt 0) start).2 = .byte 0xF0 := by decide

theorem test_reset_keeps_inputs : hostOp .reset ((start.setPc 0x250).setV 1 7) = (start, .done) := by decide

/-! ### Runs: each of the four ends of R269, and a run that has none yet -/

/-- Does the run of `n` cycles from a state end for the reason after that many cycles? -/
def endsAs (r : EndReason) (cycles n : Nat) (s : State) : Bool :=
  match runEnd n (List.replicate n .cycle) s with
  | some e => e.reason == r && e.cycles == cycles
  | none => false

theorem test_run_fails : endsAs .failed 1 5 (start.withFetchWord 16 0x00EE) = true := by decide

theorem test_run_exhausts : endsAs .exhausted 1 5 ((start.setV 0 0xFF).withFetchWord 16 0xBFFF) = true := by decide

theorem test_run_idles : endsAs .selfJump 0 0 (start.withFetchWord 16 0x1200) = true := by decide

theorem test_run_is_stopped : endsAs .hostStopped 1 1 (start.withFetchWord 16 0x6105) = true := by decide

theorem test_run_goes_on : runEnd 2 [.cycle] (start.withFetchWord 16 0x6105) = none := by decide

/-! ### Witnesses: for each statement with hypotheses, a state and operands that meet them together -/

/-- `start` with the word `w` at PC. -/
def holding (w : Nat) : State := start.withFetchWord 16 w

/-- A core in the faulted state that `00EE` on an empty stack leaves. -/
def faulted : State := start.takeFault 0x00EE ⟨.stackUnderflow, 0⟩

theorem exists_of_answers {o : Outcome} {p : State → Bool} (h : answers o p = true) : ∃ t, o = .next t ∧ p t = true := by
  unfold answers at h
  split at h
  · exact ⟨_, rfl, h⟩
  · cases h

theorem running_of {s : State} (hf : s.fault = none) (hp : s.pc.toNat ≤ 0x0FFE) : s.Running := ⟨hf, hp⟩

theorem holding_running (w : Nat) : (holding w).Running := running_of rfl (by change (0x200 : Word).toNat ≤ 0x0FFE; decide)

/-- The boundary values of I, the stack, V[x] and the pixel coordinates at which the clauses of the fault table meet (R222). -/
theorem witness_fault_boundaries :
    raisesOn (.drw 1 2 1) (start.setI 0xFFF) = none ∧ raisesOn (.drw 1 2 2) (start.setI 0xFFF) = some ⟨.memoryBounds, 0xFFF⟩ ∧
    raisesOn (.drw 1 2 0) (start.setI 0xFFFF) = none ∧ raisesOn (.ldB 1) (start.setI 0xFFD) = none ∧
    raisesOn (.ldB 1) (start.setI 0xFFE) = some ⟨.memoryBounds, 0xFFE⟩ ∧ raisesOn (.storeRegs 15) (start.setI 0xFF0) = none ∧
    raisesOn (.storeRegs 15) (start.setI 0xFF1) = some ⟨.memoryBounds, 0xFF1⟩ ∧ raisesOn (.loadRegs 0) (start.setI 0xFFF) = none ∧
    raisesOn (.loadRegs 0) (start.setI 0x1000) = some ⟨.memoryBounds, 0x1000⟩ ∧
    raisesOn (.call 0x300) (start.setStack (List.replicate 15 0x300)) = none ∧
    raisesOn (.call 0x300) (start.setStack (List.replicate 16 0x300)) = some ⟨.stackOverflow, 16⟩ ∧
    raisesOn .ret start = some ⟨.stackUnderflow, 0⟩ ∧ raisesOn .ret (start.setStack [0x202]) = none ∧
    raisesOn (.skp 1) (start.setV 1 15) = none ∧ raisesOn (.sknp 1) (start.setV 1 16) = some ⟨.invalidKeyIndex, 16⟩ := by decide

/-- LogicIsBitwiseWithoutFlag, RandomByteIsMasked: r ≠ x and k < 8. -/
theorem witness_other_register : (15 : Reg) ≠ 1 ∧ 7 < 8 := by decide

/-- StoreRegistersWritesBlock: r ≤ x, and an address below and one above the block. -/
theorem witness_store_regs : (3 : Reg) ≤ 3 ∧ (0x3FF < (start.setI 0x400).i.toNat) ∧ (start.setI 0x400).i.toNat + 3 < 0x404 := by decide

/-- DrawXorsSpriteAndFlagsCollision: a pixel under a set bit, set and clear before the draw. -/
theorem witness_drw_covers : spriteCovers start 62 31 1 0 31 = true ∧ start.pixel 0 31 = false ∧
    (start.setPixel 0 31 true).pixel 0 31 = true ∧ spriteCovers start 62 31 1 2 31 = false := by decide

/-- DrawingTwiceRestoresPixels: the second draw's state is the one the first draw answers. -/
theorem witness_drw_twice : ∃ t, exec (.drw 1 2 1) start = .next t ∧ start.i.toNat + (1 : Nibble).toNat ≤ 4096 ∧
    t.i = start.i ∧ (∀ a, t.byteAt a = start.byteAt a) ∧ (t.getV 1).toNat % 64 = (start.getV 1).toNat % 64 ∧
    (t.getV 2).toNat % 32 = (start.getV 2).toNat % 32 := by
  refine ⟨_, execDrw_eq 1 2 1 start, by decide, ?_⟩
  obtain ⟨f, g, h⟩ := drawnCells_eq 1 2 1 start
  have hno : ∀ q : Reg, q ≠ vF → State.getV { start.advancePc with v := f, fb := g } q = start.getV q := fun q hq => by
    rw [← h, State.getV_drawCells _ _ (nodup_drawnCells 1 2 1 start), if_neg (fun e => hq e.1)]; simp [hq]
  rw [if_neg (by decide), h]
  exact ⟨rfl, fun _ => rfl, by rw [hno 1 (by decide)], by rw [hno 2 (by decide)]⟩

/-- SetTimersThenTimerStep: a running core at each of the two words. -/
theorem witness_set_timers : (holding 0xF115).Running ∧ decode (holding 0xF115).fetchWord = .ok (.ldDtVx 1) ∧
    (holding 0xF118).Running ∧ decode (holding 0xF118).fetchWord = .ok (.ldStVx 1) :=
  ⟨holding_running _, by decide, holding_running _, by decide⟩

/-- TimerStepEndsTheCycle: a running core whose word runs without a fault. -/
theorem witness_timer_step : (holding 0x1200).Running ∧ ∃ t, execWord (holding 0x1200).fetchWord (holding 0x1200) = .next t ∧
    (t.fault == none) = true := ⟨holding_running _, exists_of_answers (by decide)⟩

/-- LoadDelayTimerReadsDt: a running core at Fx07. -/
theorem witness_ld_vx_dt : (holding 0xF107).Running ∧ decode (holding 0xF107).fetchWord = .ok (.ldVxDt 1) := ⟨holding_running _, by decide⟩

/-- SkipOnRegisterComparison: a low nibble that is not 0. -/
theorem witness_low_nibble : (1 : Nibble) ≠ 0 := by decide

/-- InstructionsChangeOnlyTheirParts, InputsReachOnlyRndAndTheTimers: an instruction that answers a state, and is no RND. -/
theorem witness_exec_answers : (∃ t, exec (.jp 0x200) (holding 0x1200) = .next t) ∧ ∀ x nn, Instr.jp 0x200 ≠ .rnd x nn :=
  ⟨⟨_, rfl⟩, fun _ _ => nofun⟩

/-- PcFollowsTheTable: a faulted core, an exhausted one, and a running one whose return addresses are in range. -/
theorem witness_pc_table : faulted.fault ≠ none ∧ 0x0FFE < (start.setPc 0xFFF).pc.toNat ∧ (start.setStack [0x1000]).Running ∧
    ∀ a ∈ (start.setStack [0x1000]).stack, a.toNat ≤ 0x1000 :=
  ⟨by decide, by decide, running_of rfl (by decide), List.forall_mem_singleton.mpr (by decide)⟩

/-- DecodeOfEncode: well-formed instructions, SYS among them. -/
theorem witness_well_formed : Instr.wf (.drw 1 2 15) = true ∧ Instr.wf (.sys 0x0EF) = true := by decide

/-- EncodeOfDecode: a word that decodes. -/
theorem witness_decodes : decode 0xFF65 = .ok (.loadRegs 15) := by decide

/-- NoOpWordsOnlyAdvancePc: no-op words of each group, and a running core at one. -/
theorem witness_no_op_words : isNoOpWord 0x00E1 = true ∧ isNoOpWord 0x5121 = true ∧ isNoOpWord 0x8008 = true ∧ isNoOpWord 0x912F = true ∧
    isNoOpWord 0xE000 = true ∧ isNoOpWord 0xF0FF = true ∧ isNoOpWord 0x00E0 = false ∧ (holding 0x8008).Running ∧
    isNoOpWord (holding 0x8008).fetchWord = true :=
  ⟨by decide, by decide, by decide, by decide, by decide, by decide, by decide, holding_running _, by decide⟩

/-- StepRunsDecodedInstruction: a running core whose bytes at PC decode. -/
theorem witness_step_runs : (holding 0xD125).Running ∧
    decode (BitVec.ofNat 16 (((holding 0xD125).byteAt (holding 0xD125).pc.toNat).toNat * 256 +
      ((holding 0xD125).byteAt ((holding 0xD125).pc.toNat + 1)).toNat)) = .ok (.drw 1 2 5) :=
  ⟨holding_running _, by decide⟩

/-- PlacedWordRuns: the last word, and a running core. -/
theorem witness_placed_word : 0xFFFF < 65536 ∧ start.Running := ⟨by decide, running_of rfl (by decide)⟩

/-- FaultsAreExactlyTheTable: a core without a fault. -/
theorem witness_no_fault : start.fault = none := rfl

/-- FaultEntryIsPrecise, NoCycleWritesTheKeyLatch: a step that takes a fault. -/
theorem witness_fault_entry : (holding 0x00EE).fault = none ∧ ∃ t r, step (holding 0x00EE) = .next t ∧ t.fault = some r :=
  ⟨rfl, _, _, rfl, rfl⟩

/-- OnlyResetLeavesAFault: a faulted core and events that are no Reset. -/
theorem witness_faulted : faulted.fault = some ⟨.stackUnderflow, 0x200, 0x00EE, 0⟩ ∧
    ∀ e ∈ [Event.cycle, .cycleWith true 0xAB, .host (.loadRom [0x12]), .host (.setKey 3 true)], e ≠ .host .reset := by decide

/-- ExhaustionLastsUntilReset: the lowest exhausted PC, under both values of TIMERS_TICK_WHEN_EXHAUSTED, and events that are no Reset. -/
theorem witness_exhausted : (start.setPc 0xFFF).fault = none ∧ 0x0FFE < (start.setPc 0xFFF).pc.toNat ∧
    hw.pcLimit.toNat < (start.setPc 0xFFF).pc.toNat ∧ ticking.pcLimit.toNat < (start.setPc 0xFFF).pc.toNat ∧
    hw.timersTickWhenExhausted = false ∧ ticking.timersTickWhenExhausted = true ∧
    ∀ e ∈ [Event.cycle, .host (.memAt 0)], e ≠ .host .reset := by decide

/-- OnlyListedWritersWriteRegisters: an instruction that answers a state, and a register it does not write. -/
theorem witness_unwritten_register : (∃ t, exec (.ldImm 1 5) start = .next t) ∧ writesReg (.ldImm 1 5) 15 = false := ⟨⟨_, rfl⟩, rfl⟩

/-- `start` at Fx33 or Fx55 with I = 0x300 and V1 = 7. -/
def writing (w : Nat) : State := ((holding w).setV 1 7).setI 0x300

/-- OnlyBcdAndStoreWriteMemory: a cycle of each of the two that changes a byte. -/
theorem witness_memory_writers : (writing 0xF133).Running ∧ (writing 0xF155).Running ∧
    (∃ t, step (writing 0xF133) = .next t ∧ (t.byteAt 0x302 != (writing 0xF133).byteAt 0x302) = true) ∧
    (∃ t, step (writing 0xF155) = .next t ∧ (t.byteAt 0x301 != (writing 0xF155).byteAt 0x301) = true) :=
  ⟨holding_running 0xF133, holding_running 0xF155, exists_of_answers (by decide), exists_of_answers (by decide)⟩

/-- StepKeepsInvariant, EventsKeepInvariant: a state with the invariant, a non-empty stack, and a next state. -/
theorem witness_inv : State.Inv (start.setStack [0x1000]) ∧ ∃ t, step (start.setStack [0x1000]) = .next t ∧ true = true :=
  ⟨{ memory := by decide, depth := by decide, returns := List.forall_mem_singleton.mpr (by decide), pcBound := by decide,
      faultRecord := fun _ h => absurd h (by simp; nofun) },
    exists_of_answers (p := fun _ => true) (by decide)⟩

/-- StepKeepsInvariant, EventsKeepInvariant: a state with the invariant and a fault recorded. -/
theorem witness_inv_faulted : State.Inv faulted where
  memory := by decide
  depth := by decide
  returns := fun _ h => absurd h List.not_mem_nil
  pcBound := by decide
  faultRecord := fun r h => by
    obtain rfl : (⟨.stackUnderflow, 0x200, 0x00EE, 0⟩ : FaultRecord) = r := Option.some.inj h
    exact ⟨by decide, by decide, .ret, by decide, by decide⟩

/-- CanonicalMemoriesAreDeterminedByReads: two canonical memories that read alike. -/
theorem witness_canonical : Memory.wf [(0x300, 1), (0xFFF, 2)] ∧
    (∀ a < 4096, Memory.read [(0x300, 1), (0xFFF, 2)] a = Memory.read [(0x300, 1), (0xFFF, 2)] a) :=
  ⟨by decide, fun _ _ => rfl⟩

/-- PixelPortReadsTheFramebuffer: coordinates past each edge. -/
theorem witness_read_ports : ((64 : Int) < 0 ∨ 63 < (64 : Int) ∨ (0 : Int) < 0 ∨ 31 < (0 : Int)) ∧
    ((0 : Int) < 0 ∨ 63 < (0 : Int) ∨ (-1 : Int) < 0 ∨ 31 < (-1 : Int)) := by
  decide

/-- HexTextFeedsLoadRom: a text that is read and two that are refused. -/
theorem witness_hex_text : (hexPairs ['f', 'F']) = some [0xFF] ∧ hexPairs ['f'] = none ∧ hexPairs ['f', 'g'] = none := by decide

/-- KeyWaitHoldsWithoutAKey: a running core at Fx0A with no key pressed. -/
theorem witness_key_wait : (holding 0xF50A).Running ∧ decode (holding 0xF50A).fetchWord = .ok (.ldVxK 5) ∧
    ∀ k, (holding 0xF50A).keyDown k = false := ⟨holding_running _, by decide, by decide⟩

/-- SelfJumpRepeatsForever: a core at a jump to itself. -/
theorem witness_self_jump : endOfRun (holding 0x1200) = some .selfJump := by decide

end Sys2Proof.Tests
end

/-! PROOF. The encoder's words decode back, for every instruction that some word decodes to (spec/30_encoding.md R86). -/

namespace Sys2Proof

/-- SYS is the decoding of every other address of group 0 (R86, R87). -/
theorem decodeGroup0_of_wf {nnn : Imm12} (h : (Instr.sys nnn).wf = true) : decodeGroup0 nnn = .sys nnn := by
  obtain ⟨hcls, hret⟩ : nnn ≠ 0x0E0 ∧ nnn ≠ 0x0EE := by simpa [Instr.wf] using h
  rw [decodeGroup0, if_neg hcls, if_neg hret]

theorem decode_encode {i : Instr} (h : i.wf = true) : decode (encode i) = .ok i := by
  cases i
  case cls => decide
  case ret => decide
  case sys nnn => simp [encode, decode, decodeGroup0_of_wf h]
  all_goals simp [encode, decode, decodeGroup8, decodeGroupE, decodeGroupF]

end Sys2Proof

/-! PROOF. What one instruction can do: it raises the fault that the table of R222 gives, or it changes the data its rule names and
sets PC as the table of R26 says. -/

namespace Sys2Proof.Machine

variable {i : Instr} {s t u : State} {e : Raise}

/-! ### The instructions' tables -/

theorem wf_of_raises (h : raisesOn i s = some e) : i.wf = true := by
  cases i
  case sys nnn => simp [raisesOn] at h
  all_goals rfl

@[simp] theorem pc_mem_partsOf (i : Instr) : Part.pc ∈ partsOf i := by
  cases i <;> simp [partsOf]

theorem v_mem_partsOf_of_writesReg {r : Reg} (h : writesReg i r = true) : Part.v ∈ partsOf i := by
  cases i <;> simp_all [writesReg, partsOf]

theorem fault_mem_partsOf_of_raises (h : raisesOn i s = some e) : Part.fault ∈ partsOf i := by
  cases i <;> simp_all [raisesOn, partsOf]

/-- No instruction's rule names KEY (R33). -/
theorem key_notMem_partsOf (i : Instr) : Part.key ∉ partsOf i := by
  cases i <;> simp [partsOf]

/-- What an instruction raises does not depend on FAULT. -/
@[simp] theorem raisesOn_takeFault (i : Instr) (s : State) (w : Word) (e : Raise) : raisesOn i (s.takeFault w e) = raisesOn i s := by
  cases i <;> rfl

/-- A fault leaves PC at the instruction (R26, R223). -/
theorem pcAfter_of_raises (h : raisesOn i s = some e) : pcAfter i s = s.pc := by
  simp [pcAfter, h]

/-! ### The two ways an instruction ends -/

/-- What an instruction that raises nothing does to the state beside setting PC, by the kind of data it writes. -/
inductive Effect (i : Instr) (s : State) : State → Prop where
  /-- Nothing. -/
  | nothing : Effect i s s
  /-- Registers among those of R22 and R23. -/
  | registers (f : Vector Byte sizes.numV) (hv : Part.v ∈ partsOf i)
      (hf : ∀ r, writesReg i r = false → State.getV { s with v := f } r = s.getV r) : Effect i s { s with v := f }
  /-- Registers among those of R22 and R23, and pixels. -/
  | sprite (f : Vector Byte sizes.numV) (g : Framebuffer) (hv : Part.v ∈ partsOf i) (hfb : Part.fb ∈ partsOf i)
      (hf : ∀ r, writesReg i r = false → State.getV { s with v := f } r = s.getV r) : Effect i s { s with v := f, fb := g }
  /-- The whole screen. -/
  | screen (g : Framebuffer) (hfb : Part.fb ∈ partsOf i) : Effect i s (s.setFb g)
  /-- I. -/
  | index (a : Index) (hi : Part.i ∈ partsOf i) : Effect i s (s.setI a)
  /-- DT. -/
  | delay (b : Byte) (hdt : Part.dt ∈ partsOf i) : Effect i s (s.setDt b)
  /-- ST. -/
  | sound (b : Byte) (hst : Part.st ∈ partsOf i) : Effect i s (s.setSt b)
  /-- A return address pushed on a stack that is not full (R29). -/
  | push (hstack : Part.stack ∈ partsOf i) (hroom : s.stack.length < 16) : Effect i s (s.setStack ((s.pc + 2) :: s.stack))
  /-- The top entry popped (R30). -/
  | pop (a : Word) (rest : List Word) (hstack : Part.stack ∈ partsOf i) (htop : s.stack = a :: rest) : Effect i s (s.setStack rest)
  /-- A block of bytes stored at I, inside MEM (R54). -/
  | store (bytes : List Byte) (hmem : Part.mem ∈ partsOf i) (hin : s.i.toNat + bytes.length ≤ 4096) :
      Effect i s (s.setMem (s.mem.writeAll s.i.toNat bytes))

/-- A write of one register. -/
theorem Effect.register (x : Reg) (b : Byte) (hx : writesReg i x = true) : Effect i s (s.setV x b) := by
  refine .registers _ (v_mem_partsOf_of_writesReg hx) fun r hr => ?_
  have hne : r ≠ x := by rintro rfl; simp [hx] at hr
  exact (State.getV_setV s x r b).trans (if_neg hne)

/-- A write of VF as the flag, then of one register (R23). -/
theorem Effect.flagged (a b : Byte) (x : Reg) (hF : writesReg i vF = true) (hx : writesReg i x = true) :
    Effect i s ((s.setV vF a).setV x b) := by
  refine .registers _ (v_mem_partsOf_of_writesReg hx) fun r hr => ?_
  have hne : r ≠ x := by rintro rfl; simp [hx] at hr
  have hneF : r ≠ vF := by rintro rfl; simp [hF] at hr
  exact (State.getV_setV _ x r b).trans ((if_neg hne).trans ((State.getV_setV s vF r a).trans (if_neg hneF)))

/-- An instruction that raises takes the fault, with its own word (R222, R223). -/
theorem exec_of_raises (h : raisesOn i s = some e) : exec i s = .next (s.takeFault (encode i) e) := by
  cases i
  case ret =>
    obtain ⟨hs, rfl⟩ : s.stack = [] ∧ _ = e := by simpa [raisesOn] using h
    refine (execRet_eq s).trans ?_
    rw [hs]
    rfl
  case call nnn =>
    obtain ⟨hs, rfl⟩ : 16 ≤ s.stack.length ∧ _ = e := by simpa [raisesOn] using h
    refine (execCall_eq nnn s).trans ?_
    rw [if_pos hs]
    rfl
  case drw x y n =>
    obtain ⟨hb, rfl⟩ : (0 < n.toNat ∧ 4096 < s.i.toNat + n.toNat) ∧ _ = e := by simpa [raisesOn] using h
    refine (execDrw_eq x y n s).trans ?_
    rw [if_pos hb.symm]
  case ldB x =>
    obtain ⟨hb, rfl⟩ : 4096 < s.i.toNat + 3 ∧ _ = e := by simpa [raisesOn] using h
    refine (execLdB_eq x s).trans ?_
    rw [if_pos hb]
  case storeRegs x =>
    obtain ⟨hb, rfl⟩ : 4096 < s.i.toNat + (x.val + 1) ∧ _ = e := by simpa [raisesOn] using h
    refine (execStoreRegs_eq x s).trans ?_
    rw [if_pos hb]
  case loadRegs x =>
    obtain ⟨hb, rfl⟩ : 4096 < s.i.toNat + (x.val + 1) ∧ _ = e := by simpa [raisesOn] using h
    have := execLoadRegs_eq x s
    rwa [if_pos hb] at this
  case skp x =>
    obtain ⟨hk, rfl⟩ : 16 ≤ (s.getV x).toNat ∧ _ = e := by simpa [raisesOn] using h
    refine (execSkp_eq x s).trans ?_
    rw [dif_neg (Nat.not_lt.mpr hk)]
    rfl
  case sknp x =>
    obtain ⟨hk, rfl⟩ : 16 ≤ (s.getV x).toNat ∧ _ = e := by simpa [raisesOn] using h
    refine (execSknp_eq x s).trans ?_
    rw [dif_neg (Nat.not_lt.mpr hk)]
    rfl
  all_goals simp [raisesOn] at h

/-- Some key is pressed iff the scan for one finds it (R203). -/
theorem State.anyKey_eq (s : State) : s.anyKey = s.firstKey.isSome := by
  rw [State.firstKey, List.isSome_find?]; rfl

/-- The key that a byte below 16 names in the table of R26. -/
theorem keyDown_ofNat {n : Nat} (h : n < 16) : s.keyDown (Fin.ofNat sizes.numKeys n) = s.keyDown ⟨n, h⟩ := by
  congr 1
  exact Fin.ext (Nat.mod_eq_of_lt h)

/-- A skip from the advanced PC (R118). -/
theorem State.advancePc_skipIf (s : State) (b : Bool) :
    s.advancePc.skipIf b = s.setPc (if b then s.pc + 4 else s.pc + 2) := by
  rw [State.skipIf_eq]
  cases b
  · rfl
  · exact congrArg s.setPc (BitVec.add_assoc s.pc 2 2)

/-- The target of Bnnn as the number the table of R26 gives. -/
theorem zextAddr_add_zextByte (nnn : Imm12) (b : Byte) :
    zextAddr nnn + zextByte b = BitVec.ofNat 16 (nnn.toNat + b.toNat) := by
  apply BitVec.eq_of_toNat_eq
  simp [zextAddr, zextByte]

/-- An instruction that raises nothing has its effect and sets PC as the table of R26 says. -/
theorem exec_of_not_raises (h : raisesOn i s = none) : ∃ u, Effect i s u ∧ exec i s = .next (u.setPc (pcAfter i s)) := by
  cases i
  case cls => exact ⟨_, .screen _ (by simp [partsOf]), rfl⟩
  case ret =>
    cases hs : s.stack with
    | nil => simp [raisesOn, hs] at h
    | cons a rest =>
      refine ⟨_, .pop a rest (by simp [partsOf]) hs, (execRet_eq s).trans ?_⟩
      simp [pcAfter, h, hs]; rfl
  case call nnn =>
    have hroom : ¬16 ≤ s.stack.length := by simpa [raisesOn] using h
    refine ⟨_, .push (by simp [partsOf]) (Nat.lt_of_not_le hroom), (execCall_eq nnn s).trans ?_⟩
    simp [pcAfter, h, hroom]; rfl
  case drw x y n =>
    have hin : ¬(4096 < s.i.toNat + n.toNat ∧ 0 < n.toNat) := fun hb => by simp [raisesOn, hb] at h
    obtain ⟨f, g, hfg⟩ := drawnCells_eq x y n s
    refine ⟨{ s with v := f, fb := g }, .sprite f g (by simp [partsOf]) (by simp [partsOf]) fun r hr => ?_, ?_⟩
    · have hne : r ≠ vF := by simpa [writesReg] using hr
      have hr : State.getV { s.advancePc with v := f, fb := g } r = s.getV r := by
        rw [← hfg, State.getV_drawCells _ _ (nodup_drawnCells x y n s), if_neg fun hF => hne hF.1]
        simp [hne]
      exact hr
    · rw [exec, execDrw_eq, if_neg hin, hfg, pcAfter, h]; rfl
  case ldB x =>
    have hin : ¬4096 < s.i.toNat + 3 := by simpa [raisesOn] using h
    refine ⟨_, .store (bcdDigits (s.getV x)) (by simp [partsOf]) (Nat.le_of_not_lt hin), (execLdB_eq x s).trans ?_⟩
    rw [if_neg hin, pcAfter, h]; rfl
  case storeRegs x =>
    have hin : ¬4096 < s.i.toNat + (x.val + 1) := by simpa [raisesOn] using h
    refine ⟨_, .store ((regsThrough x).map s.getV) (by simp [partsOf]) ?_, (execStoreRegs_eq x s).trans ?_⟩
    · simpa using Nat.le_of_not_lt hin
    · rw [if_neg hin, pcAfter, h]; rfl
  case loadRegs x =>
    have hin : ¬4096 < s.i.toNat + (x.val + 1) := by simpa [raisesOn] using h
    have hload := execLoadRegs_eq x s
    rw [if_neg hin] at hload
    obtain ⟨f, hexec, hf⟩ := hload
    refine ⟨{ s with v := f }, .registers f (by simp [partsOf]) fun r hr => ?_, hexec.trans ?_⟩
    · have hgt : ¬r ≤ x := by simpa [writesReg] using hr
      exact (hf r).trans (if_neg hgt)
    · rw [pcAfter, h]; rfl
  case ldVxK x =>
    rcases s.firstKey_cases with ⟨k, hk, -⟩ | ⟨hk, -⟩
    · refine ⟨_, .register x (BitVec.ofNat 8 k.val) (by simp [writesReg]), (execLdVxK_eq x s).trans ?_⟩
      simp [pcAfter, h, s.anyKey_eq, hk]; rfl
    · refine ⟨_, .nothing, (execLdVxK_eq x s).trans ?_⟩
      simp [pcAfter, h, s.anyKey_eq, hk]; rfl
  case skp x =>
    have hk : (s.getV x).toNat < 16 := by simpa [raisesOn] using h
    refine ⟨_, .nothing, (execSkp_eq x s).trans ?_⟩
    rw [dif_pos hk, ← keyDown_ofNat hk, s.advancePc_skipIf, pcAfter, h]
    rfl
  case sknp x =>
    have hk : (s.getV x).toNat < 16 := by simpa [raisesOn] using h
    refine ⟨_, .nothing, (execSknp_eq x s).trans ?_⟩
    rw [dif_pos hk, ← keyDown_ofNat hk, s.advancePc_skipIf, pcAfter, h]
    rfl
  case ldI _ | addI _ | ldF _ => exact ⟨_, .index _ (by simp [partsOf]), rfl⟩
  case ldDtVx x => exact ⟨_, .delay _ (by simp [partsOf]), rfl⟩
  case ldStVx x => exact ⟨_, .sound _ (by simp [partsOf]), rfl⟩
  case ldImm x _ | addImm x _ | ldReg x _ | orReg x _ | andReg x _ | xorReg x _ | rnd x _ | ldVxDt x =>
    exact ⟨_, .register x _ (by simp [writesReg]), rfl⟩
  case addReg x _ | sub x _ | shr x _ | subn x _ | shl x _ =>
    exact ⟨_, .flagged _ _ x (by simp [writesReg]) (by simp [writesReg]), rfl⟩
  case seImm | sneImm | seReg | sneReg => exact ⟨_, .nothing, congrArg Host.Outcome.next (s.advancePc_skipIf _)⟩
  case sys | jp => exact ⟨_, .nothing, rfl⟩
  case jpV0 nnn => exact ⟨_, .nothing, congrArg (fun a => Host.Outcome.next (s.setPc a)) (zextAddr_add_zextByte nnn _)⟩

/-- Everything that one instruction can do. -/
theorem exec_cases (h : exec i s = .next t) :
    (∃ e, raisesOn i s = some e ∧ t = s.takeFault (encode i) e) ∨
      (raisesOn i s = none ∧ ∃ u, Effect i s u ∧ t = u.setPc (pcAfter i s)) := by
  cases hr : raisesOn i s with
  | some e =>
    rw [exec_of_raises hr] at h
    cases h
    exact .inl ⟨e, rfl, rfl⟩
  | none =>
    obtain ⟨u, hu, hexec⟩ := exec_of_not_raises hr
    rw [hexec] at h
    cases h
    exact .inr ⟨rfl, u, hu, rfl⟩

/-! ### What an effect leaves unchanged -/

theorem Effect.changesOnly (h : Effect i s u) : ChangesOnly (partsOf i) s u := by
  cases h with
  | nothing => exact .refl _ s
  | registers f hv => simp [changesOnly_iff, State.pixel, State.keyDown, State.byteAt, hv]
  | sprite f g hv hfb => simp [changesOnly_iff, State.keyDown, State.byteAt, hv, hfb]
  | screen g hfb => simp [changesOnly_iff, hfb]
  | index a hi => simp [changesOnly_iff, hi]
  | delay b hdt => simp [changesOnly_iff, hdt]
  | sound b hst => simp [changesOnly_iff, hst]
  | push hstack => simp [changesOnly_iff, hstack]
  | pop a rest hstack => simp [changesOnly_iff, hstack]
  | store bytes hmem => simp [changesOnly_iff, hmem]

theorem Effect.getV (h : Effect i s u) {r : Reg} (hr : writesReg i r = false) : u.getV r = s.getV r := by
  cases h with
  | registers f hv hf => exact hf r hr
  | sprite f g hv hfb hf => exact hf r hr
  | nothing | screen | index | delay | sound | push | pop | store => rfl

theorem Effect.fault_eq (h : Effect i s u) : u.fault = s.fault := by
  cases h <;> rfl

/-- PC is no data: it is set once, after the effect. -/
theorem Effect.pc_eq (h : Effect i s u) : u.pc = s.pc := by
  cases h <;> rfl

theorem exec_changesOnly (h : exec i s = .next t) : ChangesOnly (partsOf i) s t := by
  rcases exec_cases h with ⟨e, he, rfl⟩ | ⟨-, u, hu, rfl⟩
  · exact (faultTaken_takeFault s _ e).2.mono (by simpa using fault_mem_partsOf_of_raises he)
  · exact hu.changesOnly.trans (by simp [changesOnly_iff])

theorem exec_getV (h : exec i s = .next t) {r : Reg} (hr : writesReg i r = false) : t.getV r = s.getV r := by
  rcases exec_cases h with ⟨e, -, rfl⟩ | ⟨-, u, hu, rfl⟩
  · rfl
  · exact hu.getV hr

theorem exec_pc (h : exec i s = .next t) : t.pc = pcAfter i s := by
  rcases exec_cases h with ⟨e, he, rfl⟩ | ⟨-, u, -, rfl⟩
  · exact (pcAfter_of_raises he).symm
  · rfl

end Sys2Proof.Machine

/-! PROOF. The statements about the state (spec/10_state.md): PC, frames, registers, the key latch. -/

namespace Sys2Proof.Machine

variable {i : Instr} {s t u : State} {e : Raise}

/-! ### The largest PC (R26) -/

theorem toNat_zextAddr_le (nnn : Imm12) : (nnn.setWidth 16).toNat ≤ 0xFFF := by
  have := nnn.isLt
  rw [BitVec.toNat_setWidth]
  omega

/-- The pushed address and the next instruction: 2 past a PC at which a fetch can happen. -/
theorem State.Running.toNat_pc_add_two (h : s.Running) : (s.pc + 2).toNat ≤ 0x1000 := by
  obtain ⟨-, hpc⟩ := h
  have : (s.pc + 2).toNat = (s.pc.toNat + 2) % 65536 := BitVec.toNat_add _ _
  omega

/-- A skip, taken or not, from a PC at which a fetch can happen (R118). -/
theorem State.Running.toNat_skip_le (h : s.Running) (b : Bool) : (if b then s.pc + 4 else s.pc + 2).toNat ≤ 0x1002 := by
  have hpc := h.2
  cases b
  · exact Nat.le_trans h.toNat_pc_add_two (by decide)
  · have hskip : (s.pc + 4).toNat = (s.pc.toNat + 4) % 65536 := BitVec.toNat_add _ _
    simp only [if_true]
    omega

/-- The key wait, over or not, at a PC at which a fetch can happen (R203). -/
theorem State.Running.toNat_wait_le (h : s.Running) (b : Bool) : (if b then s.pc + 2 else s.pc).toNat ≤ 0x1000 := by
  cases b
  · exact Nat.le_trans h.2 (by decide)
  · exact h.toNat_pc_add_two

theorem toNat_headD_le {l : List Word} {b : Nat} (h : ∀ a ∈ l, a.toNat ≤ b) : (l.headD 0).toNat ≤ b := by
  cases l with
  | nil => exact Nat.zero_le b
  | cons a rest => exact h a List.mem_cons_self

/-- "The largest value PC can reach is 0x10FE" (R26), where Bnnn with nnn = 0xFFF and V0 = 0xFF takes it. -/
theorem toNat_pcAfter_le (i : Instr) (h : s.Running) (hret : ∀ a ∈ s.stack, a.toNat ≤ 0x1000) :
    (pcAfter i s).toNat ≤ 0x10FE := by
  unfold pcAfter
  split
  next => exact Nat.le_trans h.2 (by decide)
  next =>
    cases i
    case jp nnn _ => exact Nat.le_trans (toNat_zextAddr_le nnn) (by decide)
    case call nnn _ => exact Nat.le_trans (toNat_zextAddr_le nnn) (by decide)
    case jpV0 nnn _ =>
      have hnnn := nnn.isLt
      have hv := (s.getV 0).isLt
      simp only [BitVec.toNat_ofNat]
      omega
    case ret => exact Nat.le_trans (toNat_headD_le hret) (by decide)
    case ldVxK => exact Nat.le_trans (h.toNat_wait_le s.anyKey) (by decide)
    case seImm | sneImm | seReg | sneReg | skp | sknp => exact Nat.le_trans (h.toNat_skip_le _) (by decide)
    all_goals exact Nat.le_trans h.toNat_pc_add_two (by decide)

/-! ### The execute step of a fetched word -/

/-- The execute step runs the word's instruction, or only advances PC (R87). -/
theorem execWord_cases {w : Word} (h : execWord w s = .next t) :
    (∃ i, decode w = .ok i ∧ exec i s = .next t) ∨ (∃ g, decode w = .error g) ∧ t = s.advancePc := by
  rw [execWord_eq] at h
  split at h
  next i hi => exact .inl ⟨i, hi, h⟩
  next g hg =>
    cases h
    exact .inr ⟨⟨g, hg⟩, rfl⟩

theorem exec_keyDown (h : exec i s = .next t) (k : Key) : t.keyDown k = s.keyDown k :=
  exec_changesOnly h .key (key_notMem_partsOf i) k

theorem execWord_keyDown {w : Word} (h : execWord w s = .next t) (k : Key) : t.keyDown k = s.keyDown k := by
  rcases execWord_cases h with ⟨i, -, hi⟩ | ⟨-, rfl⟩
  · exact exec_keyDown hi k
  · rfl

/-- A core that neither is faulted nor exhausted is one that fetches (R225). -/
theorem State.running_of_not_exhausted (hf : s.fault = none) (he : s.exhausted = false) : s.Running :=
  ⟨hf, Nat.le_of_not_lt fun hlt => by simp [(State.exhausted_iff s).mpr hlt] at he⟩

/-- A step changes nothing, or it is a fetch, an execute step, and the end of the cycle unless a fault was raised (R83). -/
theorem step_cases (h : step s = .next t) :
    t = s ∨ (s.Running ∧ ∃ u, execWord s.fetchWord s = .next u ∧ t = if u.fault.isSome then u else u.endCycle) := by
  rcases cycle_cases h with ⟨-, rfl⟩ | ⟨-, -, rfl⟩ | ⟨hf, he, hu⟩
  · exact .inl rfl
  · exact .inl rfl
  · exact .inr ⟨State.running_of_not_exhausted hf he, hu⟩

/-- Settles O42: a fault leaves PC, every other instruction sets it as the table says, and no value of the table is above 0x10FE. -/
theorem pcFollowsTheTable : Obligations.PcFollowsTheTable := by
  refine ⟨fun i s => ?_, fun g s => ⟨_, rfl, rfl⟩, fun s hs => ?_, fun i s => toNat_pcAfter_le i⟩
  · obtain ⟨t, ht⟩ := exec_next i s
    exact ⟨t, ht, exec_pc ht⟩
  · obtain ⟨t, ht⟩ := cycle_next s
    refine ⟨t, ht, ?_⟩
    rcases step_cases ht with rfl | ⟨⟨hf, hpc⟩, -⟩
    · rfl
    · exact hs.elim (absurd hf) (absurd hpc ∘ Nat.not_le_of_lt)

/-- Settles O43: a fault changes FAULT alone, and every other instruction has its effect on the parts its rule names, and sets PC. -/
theorem instructionsChangeOnlyTheirParts : Obligations.InstructionsChangeOnlyTheirParts :=
  fun _ _ _ => exec_changesOnly

/-- Settles O44: no fault writes a register, and no effect writes one that the lists do not name. -/
theorem onlyListedWritersWriteRegisters : Obligations.OnlyListedWritersWriteRegisters :=
  fun _ _ _ _ h => exec_getV h

/-- Settles O47: neither an instruction, nor a no-op word, nor the end of a cycle writes KEY. -/
theorem noCycleWritesTheKeyLatch : Obligations.NoCycleWritesTheKeyLatch := by
  intro s t h k
  rcases step_cases h with rfl | ⟨-, u, hu, rfl⟩
  · rfl
  · rw [← execWord_keyDown hu k]
    split <;> rfl

end Sys2Proof.Machine

/-! PROOF. Every step keeps the invariant of the reachable states (spec/10_state.md R26, R28; spec/60_exceptions.md R222, R223). -/

namespace Sys2Proof.Machine

variable {i : Instr} {s t u : State} {e : Raise}

/-! ### What an effect keeps of the invariant -/

theorem Effect.mem_wf (h : Effect i s u) (hs : s.mem.wf) : u.mem.wf := by
  cases h with
  | store bytes _ hin => exact Memory.wf_writeAll bytes hs hin
  | nothing | registers | sprite | screen | index | delay | sound | push | pop => exact hs

theorem Effect.stack_length_le (h : Effect i s u) (hs : s.stack.length ≤ 16) : u.stack.length ≤ 16 := by
  cases h with
  | push _ hroom => exact hroom
  | pop a rest _ htop =>
    rw [htop] at hs
    exact Nat.le_of_succ_le hs
  | nothing | registers | sprite | screen | index | delay | sound | store => exact hs

/-- A pushed address is the PC of a fetch and 2. -/
theorem Effect.returns (h : Effect i s u) (hrun : s.Running) (hs : ∀ a ∈ s.stack, a.toNat ≤ 0x1000) :
    ∀ a ∈ u.stack, a.toNat ≤ 0x1000 := by
  cases h with
  | push => exact List.forall_mem_cons.mpr ⟨hrun.toNat_pc_add_two, hs⟩
  | pop a rest _ htop =>
    rw [htop] at hs
    exact (List.forall_mem_cons.mp hs).2
  | nothing | registers | sprite | screen | index | delay | sound | store => exact hs

/-! ### The execute step and the end of the cycle -/

/-- Setting PC within its bound keeps the invariant of a core without a fault. -/
theorem State.Inv.setPc (h : s.Inv) (hf : s.fault = none) {a : Word} (ha : a.toNat ≤ 0x10FE) : (s.setPc a).Inv where
  memory := h.memory
  depth := h.depth
  returns := h.returns
  pcBound := ha
  faultRecord := fun r hr => by simp [hf] at hr

theorem Effect.inv (h : Effect i s u) (hrun : s.Running) (hs : s.Inv) : u.Inv where
  memory := h.mem_wf hs.memory
  depth := h.stack_length_le hs.depth
  returns := h.returns hrun hs.returns
  pcBound := by rw [h.pc_eq]; exact hs.pcBound
  faultRecord := fun r hr => by simp [h.fault_eq, hrun.1] at hr

/-- A fault of the table, taken where a fetch can happen, is recorded as the invariant asks. -/
theorem State.Inv.takeFault (h : s.Inv) (hrun : s.Running) (he : raisesOn i s = some e) : (s.takeFault (encode i) e).Inv where
  memory := h.memory
  depth := h.depth
  returns := h.returns
  pcBound := h.pcBound
  faultRecord := fun r hr => by
    obtain rfl : ({ cause := e.cause, pc := s.pc, word := encode i, info := e.info } : FaultRecord) = r := Option.some.inj hr
    exact ⟨rfl, hrun.2, i, decode_encode (wf_of_raises he), (raisesOn_takeFault i s _ e).trans he⟩

theorem State.Inv.of_exec (h : s.Inv) (hrun : s.Running) (ht : exec i s = .next t) : t.Inv := by
  rcases exec_cases ht with ⟨e, he, rfl⟩ | ⟨-, u, hu, rfl⟩
  · exact h.takeFault hrun he
  · exact (hu.inv hrun h).setPc (hu.fault_eq.trans hrun.1) (toNat_pcAfter_le i hrun h.returns)

theorem State.Inv.of_execWord {w : Word} (h : s.Inv) (hrun : s.Running) (ht : execWord w s = .next t) : t.Inv := by
  rcases execWord_cases ht with ⟨i, -, hi⟩ | ⟨-, rfl⟩
  · exact h.of_exec hrun hi
  · exact h.setPc hrun.1 (Nat.le_trans hrun.toNat_pc_add_two (by decide))

/-- The timers and the inputs have no part in the invariant. -/
theorem State.Inv.endCycle (h : s.Inv) (hf : s.fault = none) : s.endCycle.Inv where
  memory := h.memory
  depth := h.depth
  returns := h.returns
  pcBound := h.pcBound
  faultRecord := fun r hr => by simp [hf] at hr

theorem State.Inv.of_step (h : s.Inv) (ht : step s = .next t) : t.Inv := by
  rcases step_cases ht with rfl | ⟨hrun, u, hu, rfl⟩
  · exact h
  · have hinv := h.of_execWord hrun hu
    cases hf : u.fault with
    | none => simpa using hinv.endCycle hf
    | some r => simpa using hinv

/-- Settles O48: a step that fetches takes a fault of the table, or pushes only with room and pops, stores only inside MEM, and sets PC
within the bound of R26; any other step changes nothing. -/
theorem stepKeepsInvariant : Obligations.StepKeepsInvariant :=
  fun _ _ => State.Inv.of_step

end Sys2Proof.Machine

/-! PROOF. The statements about memory (spec/20_memory.md): who writes MEM, its canonical form, the loaders, the read ports. -/

namespace Sys2Proof.Machine

variable {i : Instr} {s t : State} {m : Memory} {a : Nat}

/-! ### Who writes MEM in a cycle (R50, R54) -/

/-- Bytes written at rising addresses change no byte outside their range. -/
theorem Memory.range_of_read_writeAll_ne {bytes : List Byte} {q : Nat} (h : (m.writeAll a bytes).read q ≠ m.read q) :
    a ≤ q ∧ q < a + bytes.length := by
  rw [Memory.read_writeAll] at h
  by_cases haq : a ≤ q
  · refine ⟨haq, Nat.lt_of_not_le fun hend => h ?_⟩
    rw [if_pos haq, List.getElem?_eq_none (by omega), Option.getD_none]
  · exact absurd (if_neg haq) h

/-- A store at I changes bytes of its own range only; a fault changes none. -/
theorem State.range_of_execute_storeAtI {w : Word} {bytes : State → List Byte} (hb : 0 < (bytes s.advancePc).length)
    (h : s.execute w (fun t => t.storeAtI (bytes t)) = .next t) (ha : t.byteAt a ≠ s.byteAt a) :
    s.i.toNat ≤ a ∧ a < s.i.toNat + (bytes s.advancePc).length := by
  rw [s.execute_storeAtI w bytes hb] at h
  cases h
  split at ha
  · exact absurd rfl ha
  · exact Memory.range_of_read_writeAll_ne ha

/-- Fx33 and Fx55 are the instructions whose rule names MEM. -/
theorem mem_mem_partsOf_iff : Part.mem ∈ partsOf i ↔ ∃ x, i = .ldB x ∨ i = .storeRegs x := by
  cases i <;> simp [partsOf]

/-- An instruction that changes a byte is Fx33 or Fx55, and the byte is in its range at I (R163, R164). -/
theorem exec_byteAt_ne (h : exec i s = .next t) (ha : t.byteAt a ≠ s.byteAt a) :
    ∃ x : Reg, (i = .ldB x ∧ s.i.toNat ≤ a ∧ a < s.i.toNat + 3) ∨
      (i = .storeRegs x ∧ s.i.toNat ≤ a ∧ a ≤ s.i.toNat + x.val) := by
  have hmem : Part.mem ∈ partsOf i := by_contra fun hno => ha (exec_changesOnly h .mem hno a)
  obtain ⟨x, rfl | rfl⟩ := mem_mem_partsOf_iff.mp hmem
  · exact ⟨x, .inl ⟨rfl, State.range_of_execute_storeAtI (bytes := fun t => bcdDigits (t.getV x)) (by simp [bcdDigits]) h ha⟩⟩
  · have hrange := State.range_of_execute_storeAtI (bytes := fun t => (regsThrough x).map t.getV) (by simp) h ha
    rw [List.length_map, length_regsThrough] at hrange
    exact ⟨x, .inr ⟨rfl, hrange.1, Nat.le_of_lt_succ hrange.2⟩⟩

/-- Settles O45: the end of a cycle and the no-op words write no byte, and of the instructions only the two stores do, in their range. -/
theorem onlyBcdAndStoreWriteMemory : Obligations.OnlyBcdAndStoreWriteMemory := by
  intro s t a _ hstep ha
  rcases step_cases hstep with rfl | ⟨-, u, hu, rfl⟩
  · exact absurd rfl ha
  · have hua : u.byteAt a ≠ s.byteAt a := by split at ha <;> exact ha
    rcases execWord_cases hu with ⟨i, hi, hexec⟩ | ⟨-, rfl⟩
    · obtain ⟨x, ⟨rfl, hrange⟩ | ⟨rfl, hrange⟩⟩ := exec_byteAt_ne hexec hua
      · exact ⟨x, .inl ⟨hi, hrange⟩⟩
      · exact ⟨x, .inr ⟨hi, hrange⟩⟩
    · exact absurd rfl hua

/-! ### The canonical form of MEM -/

/-- A listed byte is read, where the addresses rise. -/
theorem Memory.read_of_mem {v : Byte} (h : m.Pairwise fun d e => d.1 < e.1) (hm : (a, v) ∈ m) : m.read a = v := by
  induction m with
  | nil => exact absurd hm List.not_mem_nil
  | cons c rest ih =>
    obtain ⟨hlt, hrest⟩ := List.pairwise_cons.mp h
    rcases List.mem_cons.mp hm with rfl | hm
    · exact if_pos rfl
    · exact (if_neg (hlt _ hm).ne).trans (ih hrest hm)

/-- A canonical memory lists the bytes of MEM that read otherwise than an unlisted one. -/
theorem Memory.mem_iff_of_wf (h : m.wf) (c : Host.Cell) : c ∈ m ↔ c.1 < 4096 ∧ c.2 ≠ unlistedByte c.1 ∧ m.read c.1 = c.2 := by
  constructor
  · intro hc
    exact ⟨(h.2 c hc).1, (h.2 c hc).2, Memory.read_of_mem h.1 hc⟩
  · rintro ⟨-, hne, hread⟩
    obtain ⟨d, hd, hda⟩ : ∃ d ∈ m, d.1 = c.1 := by
      by_contra hno
      exact hne (hread.symm.trans (Memory.read_of_notMem fun d hd hda => hno ⟨d, hd, hda⟩))
    have hdc : d = c := Prod.ext hda ((Memory.read_of_mem h.1 hd).symm.trans (hda ▸ hread))
    exact hdc ▸ hd

/-- Settles O51: memories that read alike list the same bytes, and rising addresses leave one order for them. -/
theorem canonicalMemoriesAreDeterminedByReads : Obligations.CanonicalMemoriesAreDeterminedByReads := by
  intro m m' hm hm' hread
  have : Std.Irrefl fun d e : Host.Cell => d.1 < e.1 := ⟨fun d => lt_irrefl d.1⟩
  have : Std.Antisymm fun d e : Host.Cell => d.1 < e.1 := ⟨fun _ _ hde hed => absurd hed hde.asymm⟩
  refine List.Pairwise.eq_of_mem_iff hm.1 hm'.1 fun c => ?_
  rw [Memory.mem_iff_of_wf hm, Memory.mem_iff_of_wf hm']
  exact and_congr_right fun hc => by rw [hread c.1 hc]

/-! ### The loaders (R65, R66) -/

theorem portLoadRom_of_gt {bytes : List Byte} (s : State) (h : 0xE00 < bytes.length) :
    portLoadRom bytes s = .error .romTooLarge := if_pos h

theorem portLoadRom_of_not_gt {bytes : List Byte} (s : State) (h : ¬0xE00 < bytes.length) :
    portLoadRom bytes s = .ok (s.setMem (s.mem.clearProgram.writeAll 0x200 bytes)) := if_neg h

/-- MEM after a ROM is loaded: the lower bytes as before, then the ROM, then zeros. -/
theorem Memory.read_loaded (m : Memory) (bytes : List Byte) (q : Nat) :
    (m.clearProgram.writeAll 0x200 bytes).read q = if q < 0x200 then m.read q else bytes.getD (q - 0x200) 0 := by
  rw [Memory.read_writeAll, Memory.read_clearProgram, List.getD_eq_getElem?_getD]
  by_cases hq : q < 0x200
  · rw [if_neg (Nat.not_le_of_lt hq), if_pos hq, if_pos hq]
  · rw [if_pos (Nat.le_of_not_lt hq), if_neg hq, if_neg hq]

/-- Settles O53: the ROM is written over the zeroed program region, and a ROM too large is refused before any write. -/
theorem loadRomWritesTheProgramRegion : Obligations.LoadRomWritesTheProgramRegion := by
  intro bytes s
  split
  next h => exact congrArg (writeReply s) (portLoadRom_of_gt s h)
  next h =>
    exact ⟨_, congrArg (writeReply s) (portLoadRom_of_not_gt s h), by simp [changesOnly_iff], Memory.read_loaded s.mem bytes⟩

theorem hexDigit_lt {c : Char} {d : Nat} (h : hexDigit c = some d) : d < 16 := by
  simp only [hexDigit] at h
  split_ifs at h <;> (cases h; omega)

/-- The byte of two digits is the number they spell. -/
theorem toNat_hexByte {a b : Char} {h l : Nat} (ha : hexDigit a = some h) (hb : hexDigit b = some l) :
    (BitVec.ofNat 8 (16 * h + l)).toNat = 16 * h + l := by
  have := hexDigit_lt ha
  have := hexDigit_lt hb
  rw [BitVec.toNat_ofNat]
  omega

theorem hexPairs_cons_cons_eq_some {a b : Char} {rest : List Char} {bytes : List Byte} :
    hexPairs (a :: b :: rest) = some bytes ↔ ∃ h l tail, hexDigit a = some h ∧ hexDigit b = some l ∧
      hexPairs rest = some tail ∧ bytes = BitVec.ofNat 8 (16 * h + l) :: tail := by
  constructor
  · intro hp
    rw [hexPairs] at hp
    split at hp
    next h l tail ha hb hrest => exact ⟨h, l, tail, ha, hb, hrest, (Option.some.inj hp).symm⟩
    next => cases hp
  · rintro ⟨h, l, tail, ha, hb, hrest, rfl⟩
    rw [hexPairs, ha, hb, hrest]

theorem isSome_hexPairs_cons_cons_iff (a b : Char) (rest : List Char) :
    (hexPairs (a :: b :: rest)).isSome = true ↔
      (hexDigit a).isSome = true ∧ (hexDigit b).isSome = true ∧ (hexPairs rest).isSome = true := by
  simp [Option.isSome_iff_exists, hexPairs_cons_cons_eq_some]

/-- A text is read iff it is an even number of digits. -/
theorem isSome_hexPairs_iff (text : List Char) :
    (hexPairs text).isSome = true ↔ text.length % 2 = 0 ∧ ∀ c ∈ text, (hexDigit c).isSome = true := by
  induction text using List.twoStepInduction with
  | nil => simp [hexPairs]
  | singleton a => simp [hexPairs]
  | cons_cons a b rest ih _ =>
    have hlen : (a :: b :: rest).length % 2 = rest.length % 2 := Nat.add_mod_right _ 2
    rw [isSome_hexPairs_cons_cons_iff, ih, hlen, List.forall_mem_cons, List.forall_mem_cons]
    tauto

theorem two_mul_length_of_hexPairs {text : List Char} {bytes : List Byte} (h : hexPairs text = some bytes) :
    2 * bytes.length = text.length := by
  induction text using List.twoStepInduction generalizing bytes with
  | nil => cases h; rfl
  | singleton a => cases h
  | cons_cons a b rest ih _ =>
    obtain ⟨_, _, tail, -, -, hrest, rfl⟩ := hexPairs_cons_cons_eq_some.mp h
    have := ih hrest
    simp only [List.length_cons]
    omega

/-- Byte k is spelled by the digits 2k and 2k + 1. -/
theorem getD_of_hexPairs {text : List Char} {bytes : List Byte} (hp : hexPairs text = some bytes) {k : Nat} (hk : k < bytes.length) :
    ∃ h l : Char, text[2 * k]? = some h ∧ text[2 * k + 1]? = some l ∧
      (bytes.getD k 0).toNat = 16 * (hexDigit h).getD 0 + (hexDigit l).getD 0 := by
  induction text using List.twoStepInduction generalizing bytes k with
  | nil => cases hp; exact absurd hk k.not_lt_zero
  | singleton a => cases hp
  | cons_cons a b rest ih _ =>
    obtain ⟨_, _, tail, ha, hb, hrest, rfl⟩ := hexPairs_cons_cons_eq_some.mp hp
    cases k with
    | zero => exact ⟨a, b, rfl, rfl, by rw [ha, hb]; exact toNat_hexByte ha hb⟩
    | succ k => exact ih hrest (Nat.lt_of_succ_lt_succ hk)

theorem portLoadRomFromHexText_of_some {text : List Char} {bytes : List Byte} (s : State)
    (h : hexPairs (text.filter fun c => !isWhite c) = some bytes) : portLoadRomFromHexText text s = portLoadRom bytes s := by
  rw [portLoadRomFromHexText, h]

theorem portLoadRomFromHexText_of_none {text : List Char} (s : State) (h : hexPairs (text.filter fun c => !isWhite c) = none) :
    portLoadRomFromHexText text s = .error .invalidHexEncoding := by
  rw [portLoadRomFromHexText, h]

/-- The text is read iff it is an even number of digits, and white space. -/
theorem isSome_hexPairs_filter_iff (text : List Char) :
    (hexPairs (text.filter fun c => !isWhite c)).isSome = true ↔
      (text.filter fun c => !isWhite c).length % 2 = 0 ∧ ∀ c ∈ text, isWhite c = true ∨ (hexDigit c).isSome = true := by
  simp [isSome_hexPairs_iff, or_iff_not_imp_left]

/-- Settles O54: an even number of digits is read pair by pair and handed to loadRom, and any other text is refused before that. -/
theorem hexTextFeedsLoadRom : Obligations.HexTextFeedsLoadRom := by
  intro text s
  split
  next h =>
    obtain ⟨bytes, hbytes⟩ := Option.isSome_iff_exists.mp ((isSome_hexPairs_filter_iff text).mpr h)
    exact ⟨bytes, congrArg (writeReply s) (portLoadRomFromHexText_of_some s hbytes), two_mul_length_of_hexPairs hbytes,
      fun k => getD_of_hexPairs hbytes⟩
  next h =>
    rw [← isSome_hexPairs_filter_iff, Option.not_isSome_iff_eq_none] at h
    exact congrArg (writeReply s) (portLoadRomFromHexText_of_none s h)

/-! ### The read ports (R67, R232, R233) -/

theorem soundOn_iff (s : State) : soundOn s = true ↔ s.st ≠ 0 := bne_iff_ne

/-- memAt, inside MEM and outside it. -/
theorem portMemAt_eq (a : Int) (s : State) :
    portMemAt a s = if 0 ≤ a ∧ a ≤ 0xFFF then .ok (s.byteAt a.toNat) else .error .outOfBounds :=
  if_congr (and_congr_right fun _ => show a < 4096 ↔ a ≤ 0xFFF by omega) rfl rfl

/-- Settles O57: each port answers what it reads, and hands the state back. -/
theorem readPortsChangeNothing : Obligations.ReadPortsChangeNothing := by
  intro s
  refine ⟨soundOn_iff s, fun a => congrArg (Prod.mk s) ?_, rfl, rfl, congrArg (fun r => (s, Reply.status r)) (portStatus_eq s)⟩
  exact (congrArg byteReply (portMemAt_eq a s)).trans (apply_ite byteReply _ _ _)

end Sys2Proof.Machine

/-! PROOF. The statements about decoding and encoding (spec/30_encoding.md): the sample words, and the two directions of the round trip. -/

namespace Sys2Proof

variable {w : Word} {i : Instr}

/-- Settles O32: the fields of a packed word are the operands it was packed from, and the decoder reads just these fields. -/
theorem decodeOfEncode : Obligations.DecodeOfEncode := fun _ => decode_encode

/-- Settles O34: the decoder runs on each of the words. -/
theorem sampleWordsDecode : Obligations.SampleWordsDecode := by
  unfold Obligations.SampleWordsDecode
  decide

/-! ### A word is the word of the instruction it decodes to -/

theorem packNNN_of_fieldOp {op : BitVec 4} (h : (fieldOp w).toNat = op.toNat) : packNNN op (fieldNNN w) = w := by
  rw [← BitVec.eq_of_toNat_eq h, packNNN_fields]

theorem packXNN_of_fieldOp {op : BitVec 4} (h : (fieldOp w).toNat = op.toNat) : packXNN op (fieldX w) (fieldNN w) = w := by
  rw [← BitVec.eq_of_toNat_eq h, packXNN_fields]

theorem packXYN_of_fieldOp {op : BitVec 4} (h : (fieldOp w).toNat = op.toNat) :
    packXYN op (fieldX w) (fieldY w) (fieldN w) = w := by
  rw [← BitVec.eq_of_toNat_eq h, packXYN_fields]

theorem encode_decodeGroup0 (nnn : Imm12) : (decodeGroup0 nnn).wf = true ∧ encode (decodeGroup0 nnn) = packNNN 0x0 nnn := by
  unfold decodeGroup0
  split
  next hcls => subst hcls; exact ⟨rfl, rfl⟩
  next hcls =>
    split
    next hret => subst hret; exact ⟨rfl, rfl⟩
    next hret => exact ⟨by simpa [Instr.wf] using ⟨hcls, hret⟩, rfl⟩

theorem encode_of_decodeGroup8 {x y : Reg} {n : Nibble} (h : decodeGroup8 x y n = .ok i) :
    i.wf = true ∧ encode i = packXYN 0x8 x y n := by
  unfold decodeGroup8 at h
  split at h
  case h_10 => cases h
  all_goals
    next hn =>
      cases h
      exact ⟨rfl, congrArg (packXYN 0x8 x y) (BitVec.eq_of_toNat_eq hn.symm)⟩

theorem encode_of_decodeGroupE {x : Reg} {nn : Byte} (h : decodeGroupE x nn = .ok i) :
    i.wf = true ∧ encode i = packXNN 0xE x nn := by
  unfold decodeGroupE at h
  split at h
  case h_3 => cases h
  all_goals
    next hnn =>
      cases h
      exact ⟨rfl, congrArg (packXNN 0xE x) (BitVec.eq_of_toNat_eq hnn.symm)⟩

theorem encode_of_decodeGroupF {x : Reg} {nn : Byte} (h : decodeGroupF x nn = .ok i) :
    i.wf = true ∧ encode i = packXNN 0xF x nn := by
  unfold decodeGroupF at h
  split at h
  case h_10 => cases h
  all_goals
    next hnn =>
      cases h
      exact ⟨rfl, congrArg (packXNN 0xF x) (BitVec.eq_of_toNat_eq hnn.symm)⟩

theorem encode_of_decode (h : decode w = .ok i) : i.wf = true ∧ encode i = w := by
  unfold decode at h
  split at h
  case h_1 hop =>
    cases h
    obtain ⟨hwf, henc⟩ := encode_decodeGroup0 (fieldNNN w)
    exact ⟨hwf, henc.trans (packNNN_of_fieldOp hop)⟩
  case h_2 | h_3 | h_11 | h_12 =>
    cases h
    exact ⟨rfl, packNNN_of_fieldOp ‹_›⟩
  case h_4 | h_5 | h_7 | h_8 | h_13 =>
    cases h
    exact ⟨rfl, packXNN_of_fieldOp ‹_›⟩
  case h_6 hop | h_10 hop =>
    split at h
    next hn =>
      cases h
      exact ⟨rfl, Eq.trans (congrArg (packXYN _ _ _) hn.symm) (packXYN_of_fieldOp hop)⟩
    next => cases h
  case h_14 hop =>
    cases h
    exact ⟨rfl, packXYN_of_fieldOp hop⟩
  case h_9 hop =>
    obtain ⟨hwf, henc⟩ := encode_of_decodeGroup8 h
    exact ⟨hwf, henc.trans (packXYN_of_fieldOp hop)⟩
  case h_15 hop =>
    obtain ⟨hwf, henc⟩ := encode_of_decodeGroupE h
    exact ⟨hwf, henc.trans (packXNN_of_fieldOp hop)⟩
  case h_16 =>
    have hlt := (fieldOp w).isLt
    have hop : (fieldOp w).toNat = 0xF := by simp only [imp_false] at *; omega
    obtain ⟨hwf, henc⟩ := encode_of_decodeGroupF h
    exact ⟨hwf, henc.trans (packXNN_of_fieldOp hop)⟩

/-- The word of every instruction matches its row of R86, whatever its operands. -/
theorem encode_and_mask (i : Instr) : encode i &&& (opcodeRow i).1 = (opcodeRow i).2 := by
  open Laws.OpcodeRow in
  cases i
  exacts [cls, ret, sys _, jp _, call _, seImm _ _, sneImm _ _, seReg _ _, ldImm _ _, addImm _ _, ldReg _ _, orReg _ _,
    andReg _ _, xorReg _ _, addReg _ _, sub _ _, shr _ _, subn _ _, shl _ _, sneReg _ _, ldI _, jpV0 _, rnd _ _, drw _ _ _,
    skp _, sknp _, ldVxDt _, ldVxK _, ldDtVx _, ldStVx _, addI _, ldF _, ldB _, storeRegs _, loadRegs _]

/-- Settles O33: the decoder takes its operands from all the fields of the word that its row does not fix, and the encoder puts them back
at their places. -/
theorem encodeOfDecode : Obligations.EncodeOfDecode := by
  intro w i h
  obtain ⟨hwf, rfl⟩ := encode_of_decode h
  exact ⟨hwf, rfl, encode_and_mask i⟩

end Sys2Proof

/-! PROOF. The no-op words (spec/30_encoding.md R87). -/

namespace Sys2Proof.Machine

variable {w : Word} {i : Instr} {s t : State}

/-! ### Which words the decoder takes for no-op words -/

/-- The decoder's verdict of a no-op word: SYS, or a no-op word of a named group. -/
def IsNoOpVerdict (v : Except NoOpGroup Instr) : Prop := (∃ nnn, v = .ok (.sys nnn)) ∨ ∃ g, v = .error g

theorem isNoOpVerdict_error (g : NoOpGroup) : IsNoOpVerdict (.error g) := .inr ⟨g, rfl⟩

theorem isNoOpVerdict_ok_iff : IsNoOpVerdict (.ok i) ↔ ∃ nnn, i = .sys nnn := by
  simp [IsNoOpVerdict]

theorem isNoOpVerdict_decodeGroup0_iff (nnn : Imm12) :
    IsNoOpVerdict (.ok (decodeGroup0 nnn)) ↔ nnn ≠ 0x0E0 ∧ nnn ≠ 0x0EE := by
  rw [isNoOpVerdict_ok_iff]
  unfold decodeGroup0
  split
  next hcls => simp [hcls]
  next hcls =>
    split
    next hret => simp [hret]
    next hret => exact iff_of_true ⟨nnn, rfl⟩ ⟨hcls, hret⟩

theorem isNoOpVerdict_decodeGroup8_iff (x y : Reg) (n : Nibble) :
    IsNoOpVerdict (decodeGroup8 x y n) ↔ n.toNat ∈ [0x8, 0x9, 0xA, 0xB, 0xC, 0xD, 0xF] := by
  unfold decodeGroup8
  split
  case h_10 =>
    have hn := n.isLt
    refine iff_of_true (isNoOpVerdict_error _) ?_
    simp only [imp_false] at *
    simp
    omega
  all_goals simp [isNoOpVerdict_ok_iff, *]

theorem isNoOpVerdict_decodeGroupE_iff (x : Reg) (nn : Byte) :
    IsNoOpVerdict (decodeGroupE x nn) ↔ nn.toNat ≠ 0x9E ∧ nn.toNat ≠ 0xA1 := by
  unfold decodeGroupE
  split
  case h_3 h9E hA1 => exact iff_of_true (isNoOpVerdict_error _) ⟨h9E, hA1⟩
  all_goals simp [isNoOpVerdict_ok_iff, *]

theorem isNoOpVerdict_decodeGroupF_iff (x : Reg) (nn : Byte) :
    IsNoOpVerdict (decodeGroupF x nn) ↔ nn.toNat ∉ [0x07, 0x0A, 0x15, 0x18, 0x1E, 0x29, 0x33, 0x55, 0x65] := by
  unfold decodeGroupF
  split
  case h_10 => exact iff_of_true (isNoOpVerdict_error _) (by simp_all)
  all_goals simp [isNoOpVerdict_ok_iff, *]

/-- Groups 5 and 9: one instruction, whose words have N = 0 (R86; decision D6). -/
theorem isNoOpVerdict_ite_iff {n : Nibble} {g : NoOpGroup} (hi : ∀ nnn, i ≠ .sys nnn) :
    IsNoOpVerdict (if n = 0 then .ok i else .error g) ↔ n.toNat ≠ 0 := by
  split
  next hn => simp [isNoOpVerdict_ok_iff, hi, hn]
  next hn => exact iff_of_true (isNoOpVerdict_error g) fun h0 => hn (BitVec.eq_of_toNat_eq h0)

/-- The table of R87 and the decoder agree on the no-op words. -/
theorem isNoOpWord_iff (w : Word) : isNoOpWord w = true ↔ IsNoOpVerdict (decode w) := by
  unfold decode
  split
  case h_1 hop =>
    rw [toNat_fieldOp] at hop
    have hnnn : (fieldNNN w).toNat = w.toNat := by rw [toNat_fieldNNN]; omega
    simp [isNoOpWord, hop, isNoOpVerdict_decodeGroup0_iff, ← BitVec.toNat_inj, hnnn]
  case h_6 hop | h_10 hop =>
    rw [toNat_fieldOp] at hop
    rw [isNoOpVerdict_ite_iff (by simp), toNat_fieldN]
    simp [isNoOpWord, hop]
  case h_9 hop =>
    rw [toNat_fieldOp] at hop
    simp [isNoOpWord, hop, isNoOpVerdict_decodeGroup8_iff, toNat_fieldN]
  case h_15 hop =>
    rw [toNat_fieldOp] at hop
    simp [isNoOpWord, hop, isNoOpVerdict_decodeGroupE_iff, toNat_fieldNN]
  case h_16 =>
    have hlt := (fieldOp w).isLt
    have hop : (fieldOp w).toNat = 0xF := by simp only [imp_false] at *; omega
    rw [toNat_fieldOp] at hop
    simp [isNoOpWord, hop, isNoOpVerdict_decodeGroupF_iff, toNat_fieldNN]
  all_goals
    next hop =>
      rw [toNat_fieldOp] at hop
      simp [isNoOpWord, hop, isNoOpVerdict_ok_iff]

/-! ### What a no-op word does -/

/-- SYS and the no-op words of the other groups do the same: they advance PC. -/
theorem execWord_of_isNoOpWord (h : isNoOpWord w = true) (s : State) : execWord w s = .next s.advancePc := by
  rw [execWord_eq]
  obtain ⟨nnn, hw⟩ | ⟨g, hw⟩ := (isNoOpWord_iff w).mp h
  · rw [hw]; rfl
  · rw [hw]; rfl

theorem State.changesOnly_advancePc (s : State) : ChangesOnly [.pc] s s.advancePc := by
  simp [changesOnly_iff]

/-- The end of a cycle writes the timers and the inputs only (R83, R230). -/
theorem State.changesOnly_endCycle (s : State) : ChangesOnly [.dt, .st, .inputs] s s.endCycle := by
  simp [changesOnly_iff, State.getV, State.keyDown, State.pixel, State.byteAt]

theorem State.Running.exhausted_eq (h : s.Running) : s.exhausted = false := by
  rw [Bool.eq_false_iff, ne_eq, State.exhausted_iff]
  exact Nat.not_lt_of_le h.2

/-- The step of a core that fetches: the execute step of the word at PC, then the end of the cycle unless a fault was raised (R83). -/
theorem State.Running.step_eq (h : s.Running) (hx : execWord s.fetchWord s = .next t) :
    step s = .next (if t.fault = none then t.endCycle else t) := by
  rw [step, cycle_of_running h.1 h.exhausted_eq, hx, finishCycle_next]

/-- Settles O35: the decoder's no-op verdicts are the table's words, and the execute step of such a word is the PC advance alone. -/
theorem noOpWordsOnlyAdvancePc : Obligations.NoOpWordsOnlyAdvancePc := by
  refine ⟨isNoOpWord_iff, fun nnn s => ⟨_, rfl, rfl, s.changesOnly_advancePc⟩,
    fun w s h => ⟨_, execWord_of_isNoOpWord h s, rfl, s.changesOnly_advancePc⟩, fun s hrun h => ?_⟩
  refine ⟨s.advancePc.endCycle, ?_, rfl, toNat_timerAfter s.due s.dt, toNat_timerAfter s.due s.st, ?_⟩
  · rw [hrun.step_eq (execWord_of_isNoOpWord h s)]
    exact congrArg Host.Outcome.next (if_pos hrun.1)
  · exact (s.changesOnly_advancePc.mono (by simp)).trans (s.advancePc.changesOnly_endCycle.mono (by simp))

end Sys2Proof.Machine

/-! PROOF. A running core runs the word at PC (spec/30_encoding.md R83 to R85), and a placed word is the word at PC. -/

namespace Sys2Proof.Machine

variable {s : State}

/-- Settles O36: the bytes at PC, as a number, are the word that the cycle fetches. -/
theorem stepRunsDecodedInstruction : Obligations.StepRunsDecodedInstruction := by
  intro i s hrun hdec
  rw [← wordOfBytes_eq_ofNat] at hdec
  obtain ⟨t, ht⟩ := exec_next i s
  refine ⟨t, ht, hrun.step_eq ?_⟩
  rw [execWord_eq, State.fetchWord, hdec]
  exact ht

/-! ### Placing a word at PC (notes/assumptions/24.md) -/

/-- A stored word is fetched again: each of its bytes stands at its own address (R55). -/
theorem State.fetchWord_storeWordAtPc (s : State) (w : Word) : (s.storeWordAtPc w).fetchWord = w := by
  simp [State.fetchWord, State.storeWordAtPc]

theorem State.changesOnly_storeWordAtPc (s : State) (w : Word) : ChangesOnly [.mem] s (s.storeWordAtPc w) := by
  simp [State.storeWordAtPc, changesOnly_iff]

/-- A core made ready to fetch has no fault, and an exhausted PC went back to 0x200. -/
theorem State.readyToFetch_running (s : State) : s.readyToFetch.Running := by
  refine ⟨rfl, ?_⟩
  change (if s.exhausted then hw.pcReset else s.pc).toNat ≤ 0x0FFE
  split
  next => decide
  next he => rwa [State.exhausted_iff, Nat.not_lt] at he

theorem State.Running.readyToFetch_eq (h : s.Running) : s.readyToFetch = s := by
  apply State.ext_fields <;> simp [State.readyToFetch, h.exhausted_eq, h.1]

theorem State.withFetchWord_eq (s : State) (w : Nat) :
    s.withFetchWord 16 w = s.readyToFetch.storeWordAtPc (BitVec.ofNat 16 w) :=
  congrArg s.readyToFetch.storeWordAtPc (BitVec.eq_of_toNat_eq (by simp [tableWord]))

/-- Settles O37: the placed word is the one fetched, from a core that was made ready to fetch; a running core is ready already. -/
theorem placedWordRuns : Obligations.PlacedWordRuns := by
  intro w s _
  rw [s.withFetchWord_eq w]
  have hrun : (s.readyToFetch.storeWordAtPc (BitVec.ofNat 16 w)).Running := s.readyToFetch_running
  obtain ⟨t, ht⟩ := execWord_next (BitVec.ofNat 16 w) (s.readyToFetch.storeWordAtPc (BitVec.ofNat 16 w))
  refine ⟨t, ht, hrun.step_eq ?_, fun hs => ?_⟩
  · rw [State.fetchWord_storeWordAtPc]
    exact ht
  · rw [hs.readyToFetch_eq]
    exact s.changesOnly_storeWordAtPc _

end Sys2Proof.Machine

/-! PROOF. The statements about control flow (spec/40_control_flow.md): jumps, skips, CALL and RET. Jumps and skips set PC as the table of
R26 says and nothing else; CALL and RET are the equations of Laws/Exec.lean. -/

namespace Sys2Proof.Machine

variable {i : Instr} {s : State}

theorem decode_of_eq_encode {w : Word} (hw : w = encode i) (hwf : i.wf = true) : decode w = .ok i := by
  rw [hw, decode_encode hwf]

/-- An instruction whose rule names PC alone. -/
theorem exec_of_partsOf_eq_pc {a : Word} (hparts : partsOf i = [.pc]) (ha : pcAfter i s = a) :
    ∃ t, exec i s = .next t ∧ t.pc = a ∧ ChangesOnly [.pc] s t := by
  obtain ⟨t, ht⟩ := exec_next i s
  exact ⟨t, ht, (exec_pc ht).trans ha, hparts ▸ exec_changesOnly ht⟩

/-! ### Jumps (R111, R117) -/

theorem toNat_zextAddr (nnn : Imm12) : (zextAddr nnn).toNat = nnn.toNat :=
  BitVec.toNat_setWidth_of_le (by decide)

/-- The largest target, 0xFFF + 0xFF, needs no reduction modulo 2^16. -/
theorem toNat_ofNat_add_byte (nnn : Imm12) (b : Byte) : (BitVec.ofNat 16 (nnn.toNat + b.toNat)).toNat = nnn.toNat + b.toNat := by
  have hnnn := nnn.isLt
  have hb := b.isLt
  rw [BitVec.toNat_ofNat]
  omega

/-- Settles O2: PC is the address of the table, which as a number is nnn. -/
theorem jumpSetsPc : Obligations.JumpSetsPc := by
  refine ⟨fun nnn => decode_of_eq_encode (ofNat_eq_packNNN (by decide) nnn) rfl, fun nnn s => ?_⟩
  obtain ⟨t, ht, hpc, hframe⟩ := exec_of_partsOf_eq_pc (i := .jp nnn) (s := s) (a := zextAddr nnn) rfl rfl
  exact ⟨t, ht, by rw [hpc, toNat_zextAddr], hframe⟩

/-- Settles O7: PC is the sum of the table, which fits in 16 bits. -/
theorem jumpWithOffsetAddsV0 : Obligations.JumpWithOffsetAddsV0 := by
  refine ⟨fun nnn => decode_of_eq_encode (ofNat_eq_packNNN (by decide) nnn) rfl, fun nnn s => ?_⟩
  obtain ⟨t, ht, hpc, hframe⟩ := exec_of_partsOf_eq_pc (i := .jpV0 nnn) (s := s)
    (a := BitVec.ofNat 16 (nnn.toNat + (s.getV 0).toNat)) rfl rfl
  exact ⟨t, ht, by rw [hpc, toNat_ofNat_add_byte], hframe⟩

/-! ### Skips (R113 to R116) -/

theorem pcAfter_seImm (x : Reg) (nn : Byte) : pcAfter (.seImm x nn) s = if s.getV x = nn then s.pc + 4 else s.pc + 2 := by
  simp [pcAfter, raisesOn, skips]

theorem pcAfter_sneImm (x : Reg) (nn : Byte) : pcAfter (.sneImm x nn) s = if s.getV x = nn then s.pc + 2 else s.pc + 4 := by
  simp [pcAfter, raisesOn, skips]

theorem pcAfter_seReg (x y : Reg) : pcAfter (.seReg x y) s = if s.getV x = s.getV y then s.pc + 4 else s.pc + 2 := by
  simp [pcAfter, raisesOn, skips]

theorem pcAfter_sneReg (x y : Reg) : pcAfter (.sneReg x y) s = if s.getV x = s.getV y then s.pc + 2 else s.pc + 4 := by
  simp [pcAfter, raisesOn, skips]

/-- Groups 5 and 9 are decoded strictly (decision D6). -/
theorem decode_packXYN_of_ne_zero (x y : Reg) {n : Nibble} (hn : n ≠ 0) :
    decode (packXYN 0x5 x y n) = .error .group5 ∧ decode (packXYN 0x9 x y n) = .error .group9 := by
  simpa [decode] using hn

/-- Settles O4: the skip condition of the table is that V[x] is nn. -/
theorem skipIfRegisterEqualsByte : Obligations.SkipIfRegisterEqualsByte :=
  ⟨fun x nn => decode_of_eq_encode (ofNat_eq_packXNN (by decide) x nn) rfl, fun x nn _ => exec_of_partsOf_eq_pc rfl (pcAfter_seImm x nn)⟩

/-- Settles O5: the skip condition of the table is that V[x] is not nn. -/
theorem skipIfRegisterDiffersFromByte : Obligations.SkipIfRegisterDiffersFromByte :=
  ⟨fun x nn => decode_of_eq_encode (ofNat_eq_packXNN (by decide) x nn) rfl, fun x nn _ => exec_of_partsOf_eq_pc rfl (pcAfter_sneImm x nn)⟩

/-- Settles O6: the two skip conditions of the table, and the decoder's test of N in groups 5 and 9. -/
theorem skipOnRegisterComparison : Obligations.SkipOnRegisterComparison := by
  refine ⟨fun x y => ⟨decode_of_eq_encode (ofNat_eq_packXYN_const (by decide) x y) rfl,
      decode_of_eq_encode (ofNat_eq_packXYN_const (by decide) x y) rfl⟩, fun x y n hn => ?_,
    fun x y s => ⟨exec_of_partsOf_eq_pc rfl (pcAfter_seReg x y), exec_of_partsOf_eq_pc rfl (pcAfter_sneReg x y)⟩⟩
  rw [ofNat_eq_packXYN (k := 0x5000) (op := 0x5) rfl, ofNat_eq_packXYN (k := 0x9000) (op := 0x9) rfl]
  exact decode_packXYN_of_ne_zero x y hn

/-! ### RET and CALL (R110, R112) -/

/-- Settles O1: RET pops, or takes the fault of an empty stack with its own word. -/
theorem retPopsReturnAddress : Obligations.RetPopsReturnAddress := by
  refine ⟨decode_encode (i := .ret) rfl, fun s => ⟨_, execRet_eq s, ?_⟩⟩
  cases s.stack with
  | nil => exact faultTaken_takeFault s (encode .ret) ⟨.stackUnderflow, 0⟩
  | cons a rest => exact ⟨rfl, rfl, by simp [changesOnly_iff]⟩

/-- Settles O3: CALL pushes PC + 2 where there is room, or takes the fault of a full stack with its own word. -/
theorem callPushesReturnAddress : Obligations.CallPushesReturnAddress := by
  refine ⟨fun nnn => decode_of_eq_encode (ofNat_eq_packNNN (by decide) nnn) rfl, fun nnn s => ⟨_, execCall_eq nnn s, ?_⟩⟩
  split
  next =>
    rw [ofNat_eq_packNNN (k := 0x2000) (op := 0x2) rfl]
    exact faultTaken_takeFault s (encode (.call nnn)) ⟨.stackOverflow, 16⟩
  next => exact ⟨toNat_zextAddr nnn, rfl, by simp [changesOnly_iff]⟩

end Sys2Proof.Machine

/-! PROOF. The statements about the ALU (spec/41_alu.md). Each instruction advances PC and writes Vx, some of them VF before it; what
differs is the values written, so the rules of the two kinds of write are proved once and each statement gives its values. -/

namespace Sys2Proof.Machine

variable {i : Instr} {s : State} {x y : Reg} {a b : Byte}

/-! ### The two kinds of write -/

/-- An instruction that writes Vx alone. -/
theorem exec_of_write (h : exec i s = .next (s.advancePc.setV x b)) :
    ∃ t, exec i s = .next t ∧ t.pc = s.pc + 2 ∧ (∀ r, t.getV r = if r = x then b else s.getV r) ∧ ChangesOnly [.v, .pc] s t :=
  ⟨_, h, rfl, fun r => State.getV_setV _ x r b, by simp [changesOnly_iff]⟩

/-- An instruction that writes Vx alone, its value given bit by bit. -/
theorem exec_of_write_bits {f : Nat → Bool} (h : exec i s = .next (s.advancePc.setV x b)) (hb : ∀ k < 8, b.getLsbD k = f k) :
    ∃ t, exec i s = .next t ∧ t.pc = s.pc + 2 ∧ (∀ k < 8, (t.getV x).getLsbD k = f k) ∧
      (∀ r, r ≠ x → t.getV r = s.getV r) ∧ ChangesOnly [.v, .pc] s t := by
  obtain ⟨t, ht, hpc, hv, hframe⟩ := exec_of_write h
  have hx : t.getV x = b := (hv x).trans (if_pos rfl)
  exact ⟨t, ht, hpc, hx ▸ hb, fun r hr => (hv r).trans (if_neg hr), hframe⟩

/-- An instruction that writes VF as the flag, then Vx: for x = F the second write is the one that stays (R128). -/
theorem exec_of_flaggedWrite (h : exec i s = .next ((s.advancePc.setV vF a).setV x b)) :
    ∃ t, exec i s = .next t ∧ t.pc = s.pc + 2 ∧
      (∀ r, t.getV r = if r = x then b else if r = vF then a else s.getV r) ∧ ChangesOnly [.v, .pc] s t :=
  ⟨_, h, rfl, fun r => by simp only [State.getV_setV, State.advancePc_getV], by simp [changesOnly_iff]⟩

/-- The same with the two values as numbers. -/
theorem exec_of_flaggedWrite_toNat {m n : Nat} (h : exec i s = .next ((s.advancePc.setV vF a).setV x b)) (ha : a.toNat = m)
    (hb : b.toNat = n) :
    ∃ t, exec i s = .next t ∧ t.pc = s.pc + 2 ∧
      (∀ r, (t.getV r).toNat = if r = x then n else if r = vF then m else (s.getV r).toNat) ∧ ChangesOnly [.v, .pc] s t := by
  obtain ⟨t, ht, hpc, hv, hframe⟩ := exec_of_flaggedWrite h
  exact ⟨t, ht, hpc, fun r => by simp only [hv, apply_ite BitVec.toNat, ha, hb], hframe⟩

/-! ### The flags (R129) -/

theorem toNat_flagByte (c : Bool) : (flagByte c).toNat = if c then 1 else 0 := by
  cases c <;> rfl

theorem toNat_carryFlag (sum : Nat) : (carryFlag sum).toNat = if sum > 255 then 1 else 0 := by
  simp [carryFlag, toNat_flagByte]

theorem greaterFlag_eq (b c : Byte) : greaterFlag b c = if b.toNat > c.toNat then 1 else 0 := by
  simp [greaterFlag, flagByte, BitVec.lt_def]

/-- The bit moved out on the right is the remainder by 2. -/
theorem toNat_shiftOutRight (b : Byte) : (shiftOutRight b).toNat = b.toNat % 2 := by
  rw [shiftOutRight, toNat_flagByte, BitVec.getLsbD, Nat.testBit_zero]
  rcases Nat.mod_two_eq_zero_or_one b.toNat with h | h <;> simp [h]

/-- The bit moved out on the left is set from 128 on. -/
theorem getLsbD_seven_eq (b : Byte) : b.getLsbD 7 = decide (b.toNat ≥ 128) :=
  BitVec.msb_eq_decide b

theorem toNat_shiftOutLeft (b : Byte) : (shiftOutLeft b).toNat = if b.toNat ≥ 128 then 1 else 0 := by
  rw [shiftOutLeft, toNat_flagByte, getLsbD_seven_eq]
  simp only [decide_eq_true_eq]

/-! ### One register written (R130 to R135, R141) -/

/-- Settles O8: the byte is the operand nn. -/
theorem loadByteSetsRegister : Obligations.LoadByteSetsRegister :=
  ⟨fun x nn => decode_of_eq_encode (ofNat_eq_packXNN (by decide) x nn) rfl, fun _ _ _ => exec_of_write rfl⟩

/-- Settles O9: the sum of two bytes, as a number, wraps at 256. -/
theorem addByteWrapsWithoutFlag : Obligations.AddByteWrapsWithoutFlag := by
  refine ⟨fun x nn => decode_of_eq_encode (ofNat_eq_packXNN (by decide) x nn) rfl, fun x nn s => ?_⟩
  obtain ⟨t, ht, hpc, hv, hframe⟩ := exec_of_write (i := .addImm x nn) (s := s) rfl
  exact ⟨t, ht, hpc, fun r => by rw [hv, apply_ite BitVec.toNat, BitVec.toNat_add], hframe⟩

/-- Settles O10: the byte is V[y]. -/
theorem copyRegister : Obligations.CopyRegister :=
  ⟨fun x y => decode_of_eq_encode (ofNat_eq_packXYN_const (by decide) x y) rfl, fun _ _ _ => exec_of_write rfl⟩

/-- Settles O11: each bit of the result is that of the two operands' bits. -/
theorem logicIsBitwiseWithoutFlag : Obligations.LogicIsBitwiseWithoutFlag :=
  ⟨fun x y => ⟨decode_of_eq_encode (ofNat_eq_packXYN_const (by decide) x y) rfl,
      decode_of_eq_encode (ofNat_eq_packXYN_const (by decide) x y) rfl,
      decode_of_eq_encode (ofNat_eq_packXYN_const (by decide) x y) rfl⟩,
    fun _ _ _ => ⟨exec_of_write_bits rfl fun _ _ => BitVec.getLsbD_or, exec_of_write_bits rfl fun _ _ => BitVec.getLsbD_and,
      exec_of_write_bits rfl fun _ _ => BitVec.getLsbD_xor⟩⟩

/-- Settles O17: the byte is the input rnd, whatever it is, masked bit by bit. -/
theorem randomByteIsMasked : Obligations.RandomByteIsMasked :=
  ⟨fun x nn => decode_of_eq_encode (ofNat_eq_packXNN (by decide) x nn) rfl,
    fun _ _ _ => exec_of_write_bits rfl fun _ _ => BitVec.getLsbD_and⟩

/-! ### VF, then the result (R136 to R140) -/

/-- Settles O12: the sum and its carry are from the old registers. -/
theorem addRegistersSetsCarry : Obligations.AddRegistersSetsCarry :=
  ⟨fun x y => decode_of_eq_encode (ofNat_eq_packXYN_const (by decide) x y) rfl,
    fun _ _ _ => exec_of_flaggedWrite_toNat rfl (toNat_carryFlag _) (BitVec.toNat_ofNat _ 8)⟩

/-- The difference of two registers as they stand after the flag write (decision D11). -/
theorem sub_getV_setV_vF (s : State) (p q : Reg) (a : Byte) :
    (s.setV vF a).getV p - (s.setV vF a).getV q =
      if p = q then 0 else if p = vF then a - s.getV q else if q = vF then s.getV p - a else s.getV p - s.getV q := by
  simp only [State.getV_setV]
  by_cases hpq : p = q
  · rw [hpq, if_pos rfl, BitVec.sub_self]; rfl
  by_cases hp : p = vF
  · have hq : q ≠ vF := fun hq => hpq (hp.trans hq.symm)
    rw [if_pos hp, if_neg hq, if_neg hpq, if_pos hp]
  · rw [if_neg hp, if_neg hpq, if_neg hp]
    exact apply_ite (s.getV p - ·) _ _ _

/-- Settles O13: the flag, then the difference after the flag write. -/
theorem subSetsStrictFlagFirst : Obligations.SubSetsStrictFlagFirst := by
  refine ⟨fun x y => decode_of_eq_encode (ofNat_eq_packXYN_const (by decide) x y) rfl, fun x y s => ?_⟩
  obtain ⟨t, ht, hpc, hv, hframe⟩ := exec_of_flaggedWrite (i := .sub x y) (s := s) rfl
  refine ⟨t, ht, hpc, fun r => ?_, hframe⟩
  rw [hv, sub_getV_setV_vF, greaterFlag_eq]
  rfl

/-- Settles O15: as for SUB with the operands' roles exchanged; not both of two different registers are VF. -/
theorem subnSetsStrictFlagFirst : Obligations.SubnSetsStrictFlagFirst := by
  refine ⟨fun x y => decode_of_eq_encode (ofNat_eq_packXYN_const (by decide) x y) rfl, fun x y s => ?_⟩
  obtain ⟨t, ht, hpc, hv, hframe⟩ := exec_of_flaggedWrite (i := .subn x y) (s := s) rfl
  refine ⟨t, ht, hpc, fun r => ?_, hframe⟩
  rw [hv, sub_getV_setV_vF, greaterFlag_eq]
  by_cases hxy : x = y
  · simp only [hxy, if_true]
  · have hF : y = vF → ¬x = vF := fun hy hx => hxy (hx.trans hy.symm)
    rw [if_neg hxy, if_neg (Ne.symm hxy), ite_ite_comm (h := hF)]
    rfl

/-- The right shift of a register as it stands after the flag write: a flag has no bit but bit 0. -/
theorem toNat_getV_setV_vF_ushiftRight (s : State) (x : Reg) (c : Bool) :
    ((s.setV vF (flagByte c)).getV x >>> 1).toNat = if x = vF then 0 else (s.getV x).toNat / 2 := by
  rw [State.getV_setV]
  split
  next => cases c <;> rfl
  next => rw [BitVec.toNat_ushiftRight, Nat.shiftRight_one]

/-- The left shift of a register as it stands after the flag write: a flag is doubled without loss. -/
theorem toNat_getV_setV_vF_shiftLeft (s : State) (x : Reg) (c : Bool) :
    ((s.setV vF (flagByte c)).getV x <<< 1).toNat = if x = vF then (if c then 2 else 0) else (s.getV x).toNat * 2 % 256 := by
  rw [State.getV_setV]
  split
  next => cases c <;> rfl
  next => rw [BitVec.toNat_shiftLeft, Nat.shiftLeft_eq]

/-- Settles O14: the flag is the bit moved out, and for x = F it is itself shifted out. -/
theorem shiftRightMovesBitZeroToFlag : Obligations.ShiftRightMovesBitZeroToFlag :=
  ⟨fun x y => decode_of_eq_encode (ofNat_eq_packXYN_const (by decide) x y) rfl,
    fun x _ s => exec_of_flaggedWrite_toNat rfl (toNat_shiftOutRight _) (toNat_getV_setV_vF_ushiftRight s.advancePc x _)⟩

/-- Settles O16: the flag is the bit moved out, and for x = F it is itself doubled. -/
theorem shiftLeftMovesBitSevenToFlag : Obligations.ShiftLeftMovesBitSevenToFlag := by
  refine ⟨fun x y => decode_of_eq_encode (ofNat_eq_packXYN_const (by decide) x y) rfl, fun x y s => ?_⟩
  refine exec_of_flaggedWrite_toNat rfl (toNat_shiftOutLeft _) ?_
  rw [shiftOutLeft, getLsbD_seven_eq, toNat_getV_setV_vF_shiftLeft]
  simp only [decide_eq_true_eq, State.advancePc_getV]

end Sys2Proof.Machine

/-! PROOF. The statements about the index register and the memory transfers (spec/42_index_memory.md): one rule for the writes of I, one for
the transfers, which check their whole range before any effect (R54). -/

namespace Sys2Proof.Machine

variable {i : Instr} {s : State}

/-! ### Writes of I (R160 to R162) -/

/-- An instruction that writes I alone, its value given as a number. -/
theorem exec_of_setI {a : Index} {n : Nat} (h : exec i s = .next (s.advancePc.setI a)) (ha : a.toNat = n) :
    ∃ t, exec i s = .next t ∧ t.pc = s.pc + 2 ∧ t.i.toNat = n ∧ ChangesOnly [.i, .pc] s t :=
  ⟨_, h, rfl, ha, by simp [changesOnly_iff]⟩

/-- The sum of I and a byte, as a number (R161). -/
theorem toNat_add_zextByte (a : Index) (b : Byte) : (a + zextByte b).toNat = (a.toNat + b.toNat) % 65536 := by
  rw [BitVec.toNat_add, zextByte, BitVec.toNat_setWidth_of_le (by decide)]
  rfl

/-- The largest font address, 5 * 255, needs no reduction modulo 2^16. -/
theorem toNat_glyphAddr (b : Byte) : (glyphAddr b).toNat = 5 * b.toNat := by
  have hb := b.isLt
  rw [glyphAddr, BitVec.toNat_ofNat]
  omega

/-- Settles O18: the operand nnn, widened to 16 bits. -/
theorem loadIndexSetsI : Obligations.LoadIndexSetsI :=
  ⟨fun nnn => decode_of_eq_encode (ofNat_eq_packNNN (by decide) nnn) rfl, fun nnn _ => exec_of_setI rfl (toNat_zextAddr nnn)⟩

/-- Settles O19: the sum of two values wraps at 16 bits, and I is the one register written. -/
theorem addToIndexWrapsAtSixteenBits : Obligations.AddToIndexWrapsAtSixteenBits :=
  ⟨fun x => decode_of_eq_encode (ofNat_eq_packXNN_const (by decide) x) rfl, fun _ _ => exec_of_setI rfl (toNat_add_zextByte _ _)⟩

/-- Settles O20: five times the whole byte, which fits in 16 bits. -/
theorem fontAddressIsFiveTimesDigit : Obligations.FontAddressIsFiveTimesDigit :=
  ⟨fun x => decode_of_eq_encode (ofNat_eq_packXNN_const (by decide) x) rfl, fun _ _ => exec_of_setI rfl (toNat_glyphAddr _)⟩

/-! ### Transfers of a block at I (R163 to R165) -/

/-- An instruction that raises MemoryBounds exactly where its n bytes at I pass the end of MEM takes that fault there; `P` is what it
does elsewhere. -/
theorem exec_of_raisesOn_memoryBounds {w : Word} {n : Nat} {P : State → Prop} (hw : w = encode i)
    (hraises : raisesOn i s = if 4096 < s.i.toNat + n then some ⟨.memoryBounds, s.i⟩ else none)
    (hinside : ¬4096 < s.i.toNat + n → ∃ t, exec i s = .next t ∧ P t) :
    ∃ t, exec i s = .next t ∧ if s.i.toNat + n > 4096 then FaultTaken .memoryBounds w s.i s t else P t := by
  by_cases h : 4096 < s.i.toNat + n
  · have ht := exec_of_raises (hraises.trans (if_pos h))
    rw [← hw] at ht
    exact ⟨_, ht, (if_pos h).symm ▸ faultTaken_takeFault s w ⟨.memoryBounds, s.i⟩⟩
  · obtain ⟨t, ht, hP⟩ := hinside h
    exact ⟨t, ht, (if_neg h).symm ▸ hP⟩

/-- A write of MEM beside the PC advance changes no other part. -/
theorem State.changesOnly_advancePc_setMem (s : State) (m : Memory) : ChangesOnly [.mem, .pc] s (s.advancePc.setMem m) := by
  simp [changesOnly_iff]

/-- The digits as numbers: none of them needs reduction to a byte. -/
theorem map_toNat_bcdDigits (b : Byte) :
    (bcdDigits b).map BitVec.toNat = [b.toNat / 100, b.toNat / 10 % 10, b.toNat % 10] := by
  have hb := b.isLt
  simp only [bcdDigits, List.map_cons, List.map_nil, BitVec.toNat_ofNat, List.cons.injEq, and_true]
  omega

/-- A byte after a block was stored, as a number. -/
theorem Memory.toNat_read_writeAll (m : Memory) (bytes : List Byte) (a q : Nat) :
    ((m.writeAll a bytes).read q).toNat =
      if a ≤ q then ((bytes.map BitVec.toNat)[q - a]?).getD (m.read q).toNat else (m.read q).toNat := by
  rw [Memory.read_writeAll, apply_ite BitVec.toNat, List.getElem?_map, Option.getD_map]

/-- The digits stand at the first three addresses, every other byte is as before. -/
theorem Memory.toNat_read_writeAll_bcdDigits (m : Memory) (b : Byte) (a q : Nat) :
    ((m.writeAll a (bcdDigits b)).read q).toNat =
      if q = a then b.toNat / 100 else if q = a + 1 then b.toNat / 10 % 10 else if q = a + 2 then b.toNat % 10
      else (m.read q).toNat := by
  rw [Memory.toNat_read_writeAll, map_toNat_bcdDigits]
  by_cases haq : a ≤ q
  · obtain ⟨k, rfl⟩ := Nat.exists_eq_add_of_le haq
    match k with
    | 0 | 1 | 2 | k + 3 => simp
  · rw [if_neg haq, if_neg (by omega), if_neg (by omega), if_neg (by omega)]

/-- Register r of a stored block stands r bytes past its start. -/
theorem Memory.read_writeAll_regsThrough (m : Memory) (f : Reg → Byte) (a : Nat) {x r : Reg} (hr : r ≤ x) :
    (m.writeAll a ((regsThrough x).map f)).read (a + r.val) = f r := by
  have hget : (regsThrough x)[r.val]? = some r := by
    rw [getElem?_regsThrough, dif_pos (reg_lt r), if_pos (Fin.le_def.mp hr)]
  rw [Memory.read_writeAll, if_pos (Nat.le_add_right a r.val), Nat.add_sub_cancel_left, List.getElem?_map, hget]
  rfl

/-- The bytes on both sides of a stored block are as before. -/
theorem Memory.read_writeAll_of_outside (m : Memory) (bytes : List Byte) {a q : Nat} (h : q < a ∨ a + bytes.length ≤ q) :
    (m.writeAll a bytes).read q = m.read q := by
  by_contra hne
  have hrange := Memory.range_of_read_writeAll_ne hne
  omega

/-- Settles O21: the store of the three digits, or the fault of its range. -/
theorem bcdStoresThreeDigits : Obligations.BcdStoresThreeDigits := by
  have hword (x : Reg) := ofNat_eq_packXNN_const (k := 0xF033) (op := 0xF) (nn := 0x33) rfl x
  refine ⟨fun x => decode_of_eq_encode (hword x) rfl, fun x s => exec_of_raisesOn_memoryBounds (hword x) rfl fun hin => ?_⟩
  exact ⟨_, (execLdB_eq x s).trans (congrArg _ (if_neg hin)), rfl,
    Memory.toNat_read_writeAll_bcdDigits s.mem (s.getV x) s.i.toNat, s.changesOnly_advancePc_setMem _⟩

/-- Settles O22: the store of the registers 0 to x, or the fault of its range; I stays (decision D17). -/
theorem storeRegistersWritesBlock : Obligations.StoreRegistersWritesBlock := by
  have hword (x : Reg) := ofNat_eq_packXNN_const (k := 0xF055) (op := 0xF) (nn := 0x55) rfl x
  refine ⟨fun x => decode_of_eq_encode (hword x) rfl, fun x s => exec_of_raisesOn_memoryBounds (hword x) rfl fun hin => ?_⟩
  refine ⟨_, (execStoreRegs_eq x s).trans (congrArg _ (if_neg hin)), rfl,
    fun r hr => Memory.read_writeAll_regsThrough s.mem s.getV s.i.toNat hr,
    fun a ha => Memory.read_writeAll_of_outside s.mem _ ?_, s.changesOnly_advancePc_setMem _⟩
  rwa [List.length_map, length_regsThrough]

/-- Settles O23: the load of the registers 0 to x, or the fault of its range; I stays (decision D17). -/
theorem loadRegistersReadsBlock : Obligations.LoadRegistersReadsBlock := by
  have hword (x : Reg) := ofNat_eq_packXNN_const (k := 0xF065) (op := 0xF) (nn := 0x65) rfl x
  refine ⟨fun x => decode_of_eq_encode (hword x) rfl, fun x s => exec_of_raisesOn_memoryBounds (hword x) rfl fun hin => ?_⟩
  have hload := execLoadRegs_eq x s
  rw [if_neg hin] at hload
  obtain ⟨f, hexec, hv⟩ := hload
  exact ⟨_, hexec, rfl, hv, by simp [changesOnly_iff, State.keyDown, State.pixel, State.byteAt]⟩

end Sys2Proof.Machine

/-! PROOF. The statements about the framebuffer (spec/43_display.md): CLS, the pixel port, and DRW. What DRW does is said once, by the
list of cells it toggles; the sprite of a statement covers exactly these cells. -/

namespace Sys2Proof.Machine

variable {x y : Reg} {n : Nibble} {s : State}

/-! ### CLS and the pixel port (R181, R184) -/

/-- A framebuffer without a set pixel shows none: Reset leaves the same one. -/
theorem State.pixel_setFb_replicate_false (s : State) (px : Column) (py : Row) :
    (s.setFb (Vector.replicate sizes.fbHeight (Vector.replicate sizes.fbWidth false))).pixel px py = false :=
  State.resetOf_pixel hw px py

/-- Settles O24: CLS replaces the framebuffer by one without a set pixel. -/
theorem clearScreenClearsEveryPixel : Obligations.ClearScreenClearsEveryPixel :=
  ⟨decode_encode (i := .cls) rfl,
    fun s => ⟨_, rfl, rfl, s.advancePc.pixel_setFb_replicate_false, by simp [changesOnly_iff]⟩⟩

/-- Settles O56: the port's range check passes exactly for a column and a row, and the state is handed back. -/
theorem pixelPortReadsTheFramebuffer : Obligations.PixelPortReadsTheFramebuffer :=
  fun s => ⟨fun px py => congrArg (fun r => (s, boolReply r)) (portPixelAt_coe px py s),
    fun _ _ h => congrArg (fun r => (s, boolReply r)) (portPixelAt_outside s h)⟩

/-! ### The cells that DRW toggles (R180, R182) -/

/-- A cell lies under a set bit of the sprite iff it is among those the drawing visits. -/
theorem spriteCovers_eq_decide (s : State) (ox oy n : Nat) (px : Column) (py : Row) :
    spriteCovers s ox oy n px py = decide ((px, py) ∈ spriteCells s ox oy (List.range n)) := by
  rw [Bool.eq_iff_iff, decide_eq_true_eq, mem_spriteCells]
  have hcell (r c : Nat) : spriteCell ox oy r c = (px, py) ↔ (ox + c) % 64 = px.val ∧ (oy + r) % 32 = py.val :=
    Prod.mk_inj.trans (and_congr Fin.ext_iff Fin.ext_iff)
  simp only [spriteCovers, List.any_eq_true, List.mem_range, Bool.and_eq_true, beq_iff_eq, spriteBit, hcell, and_comm]

/-- The state that DRW answers where the sprite lies inside MEM: VF cleared, then the cells toggled. -/
def State.drawn (x y : Reg) (n : Nibble) (s : State) : State :=
  (s.advancePc.setV vF 0).drawCells (drawnCells x y n s)

theorem exec_drw_of_inside (h : ¬(4096 < s.i.toNat + n.toNat ∧ 0 < n.toNat)) :
    exec (.drw x y n) s = .next (s.drawn x y n) :=
  (execDrw_eq x y n s).trans (congrArg _ (if_neg h))

theorem State.pixel_drawn (x y : Reg) (n : Nibble) (s : State) (px : Column) (py : Row) :
    (s.drawn x y n).pixel px py = (s.pixel px py != decide ((px, py) ∈ drawnCells x y n s)) := by
  rw [State.drawn, State.pixel_drawCells _ _ (nodup_drawnCells x y n s), State.setV_pixel, State.advancePc_pixel]
  by_cases h : (px, py) ∈ drawnCells x y n s <;> simp [h]

/-- VF is 1 iff one of the cells was set before the draw. -/
theorem State.getV_vF_drawn (x y : Reg) (n : Nibble) (s : State) :
    (s.drawn x y n).getV vF = if ∃ px py, (px, py) ∈ drawnCells x y n s ∧ s.pixel px py = true then 1 else 0 := by
  rw [State.drawn, State.getV_drawCells _ _ (nodup_drawnCells x y n s)]
  simp

theorem State.getV_vF_drawn_eq_one_iff (x y : Reg) (n : Nibble) (s : State) :
    (s.drawn x y n).getV vF = 1 ↔ ∃ px py, (px, py) ∈ drawnCells x y n s ∧ s.pixel px py = true := by
  simp [State.getV_vF_drawn]

theorem State.getV_drawn_of_ne (x y : Reg) (n : Nibble) (s : State) {r : Reg} (hr : r ≠ vF) :
    (s.drawn x y n).getV r = s.getV r := by
  rw [State.drawn, State.getV_drawCells _ _ (nodup_drawnCells x y n s)]
  simp [hr]

theorem State.drawn_pc (x y : Reg) (n : Nibble) (s : State) : (s.drawn x y n).pc = s.pc + 2 := by
  obtain ⟨f, g, hfg⟩ := drawnCells_eq x y n s
  rw [State.drawn, hfg]
  rfl

theorem State.changesOnly_drawn (x y : Reg) (n : Nibble) (s : State) : ChangesOnly [.v, .fb, .pc] s (s.drawn x y n) := by
  obtain ⟨f, g, hfg⟩ := drawnCells_eq x y n s
  rw [State.drawn, hfg]
  simp [changesOnly_iff, State.keyDown, State.byteAt]

/-! ### DRW (R182, R183) -/

/-- Settles O25: the cells the drawing visits are those under the set bits, or the fault of the sprite's range is taken. -/
theorem drawXorsSpriteAndFlagsCollision : Obligations.DrawXorsSpriteAndFlagsCollision := by
  have hword (x y : Reg) (n : Nibble) := ofNat_eq_packXYN (k := 0xD000) (op := 0xD) rfl x y n
  refine ⟨fun x y n => decode_of_eq_encode (hword x y n) rfl, fun x y n s => ?_⟩
  by_cases h : n.toNat > 0 ∧ s.i.toNat + n.toNat > 4096
  · refine ⟨_, exec_of_raises (if_pos h), ?_⟩
    rw [if_pos h, hword]
    exact faultTaken_takeFault s (encode (.drw x y n)) ⟨.memoryBounds, s.i⟩
  · refine ⟨_, exec_drw_of_inside fun hb => h hb.symm, ?_⟩
    simp only [if_neg h, spriteCovers_eq_decide, decide_eq_true_eq]
    refine ⟨s.drawn_pc x y n, s.pixel_drawn x y n, ?_, fun r => s.getV_drawn_of_ne x y n, s.changesOnly_drawn x y n⟩
    by_cases hset : ∃ px py, (px, py) ∈ drawnCells x y n s ∧ s.pixel px py = true
    · exact .inl ⟨(s.getV_vF_drawn x y n).trans (if_pos hset), hset⟩
    · exact .inr ⟨(s.getV_vF_drawn x y n).trans (if_neg hset),
        fun px py hcell => Bool.eq_false_iff.mpr fun hp => hset ⟨px, py, hcell, hp⟩⟩

/-- The cells depend on I, the sprite's bytes and the origin alone. -/
theorem drawnCells_congr {x' y' : Reg} {u : State} (hi : u.i = s.i) (hmem : ∀ a, u.byteAt a = s.byteAt a)
    (hx : (u.getV x').toNat % 64 = (s.getV x).toNat % 64) (hy : (u.getV y').toNat % 32 = (s.getV y).toNat % 32) :
    drawnCells x' y' n u = drawnCells x y n s := by
  simp only [drawnCells, spriteCells, hi, hmem, hx, hy]

/-- Settles O26: both draws toggle the same cells, so each pixel is toggled twice or never, and a cell that the second draw finds set was
clear before the first. -/
theorem drawingTwiceRestoresPixels : Obligations.DrawingTwiceRestoresPixels := by
  intro x y x' y' n s hin
  refine ⟨s.drawn x y n, exec_drw_of_inside fun hb => Nat.not_lt.mpr hin hb.1, fun u hpix hi hmem hx hy => ?_⟩
  have hcells := drawnCells_congr (n := n) hi hmem hx hy
  refine ⟨u.drawn x' y' n, exec_drw_of_inside fun hb => Nat.not_lt.mpr hin (hi ▸ hb.1), fun px py => ?_, ?_⟩
  · rw [State.pixel_drawn, hcells, hpix, State.pixel_drawn, Bool.bne_assoc, bne_self_eq_false, Bool.bne_false]
  · have hflip (px : Column) (py : Row) (h : (px, py) ∈ drawnCells x y n s) : u.pixel px py = !s.pixel px py := by
      rw [hpix, State.pixel_drawn, decide_eq_true h, Bool.bne_true]
    simp only [spriteCovers_eq_decide, decide_eq_true_eq]
    refine (u.getV_vF_drawn_eq_one_iff x' y' n).trans ?_
    rw [hcells]
    exact exists_congr fun px => exists_congr fun py => and_congr_right fun h => by rw [hflip px py h, Bool.not_eq_true']

end Sys2Proof.Machine

/-! PROOF. The statements about keys and timers (spec/44_timers_keys.md): what the execute step does, and what the timer step of the same
cycle makes of it (spec/60_exceptions.md R230). -/

namespace Sys2Proof.Machine

variable {i : Instr} {s t : State} {x : Reg} {ps : List Part}

/-! ### The key tests (R200, R201) -/

/-- A key test, which sets PC to `a k` where Vx names a key k and raises InvalidKeyIndex where it names none (decision D5). -/
theorem exec_of_keyTest {w : Word} {a : Key → ProgramCounter} (hw : w = encode i)
    (h : exec i s = .next (if h : (s.getV x).toNat < 16 then s.setPc (a ⟨_, h⟩)
      else s.takeFault (encode i) ⟨.invalidKeyIndex, zextByte (s.getV x)⟩)) :
    ∃ t, exec i s = .next t ∧ if h : (s.getV x).toNat < 16 then t.pc = a ⟨_, h⟩ ∧ ChangesOnly [.pc] s t
      else FaultTaken .invalidKeyIndex w ((s.getV x).setWidth 16) s t := by
  refine ⟨_, h, ?_⟩
  by_cases hk : (s.getV x).toNat < 16
  · simp only [dif_pos hk]
    exact ⟨rfl, by simp [changesOnly_iff]⟩
  · simp only [dif_neg hk, hw]
    exact faultTaken_takeFault s (encode i) ⟨.invalidKeyIndex, zextByte (s.getV x)⟩

/-- Settles O27: SKP and SKNP are the key test with the two targets of a skip exchanged. -/
theorem skipOnKey : Obligations.SkipOnKey := by
  have hskp (x : Reg) := ofNat_eq_packXNN_const (k := 0xE09E) (op := 0xE) (nn := 0x9E) rfl x
  have hsknp (x : Reg) := ofNat_eq_packXNN_const (k := 0xE0A1) (op := 0xE) (nn := 0xA1) rfl x
  refine ⟨fun x => ⟨decode_of_eq_encode (hskp x) rfl, decode_of_eq_encode (hsknp x) rfl⟩, fun x s => ⟨?_, ?_⟩⟩
  · refine exec_of_keyTest (a := fun k => if s.keyDown k then s.pc + 4 else s.pc + 2) (hskp x) ((execSkp_eq x s).trans ?_)
    simp only [State.advancePc_skipIf]
  · refine exec_of_keyTest (a := fun k => if s.keyDown k then s.pc + 2 else s.pc + 4) (hsknp x) ((execSknp_eq x s).trans ?_)
    simp only [State.advancePc_skipIf, Bool.not_eq_true', ← Bool.not_eq_true, ite_not]

/-! ### The cycle of an instruction that raises nothing (R83, R230) -/

theorem exec_fault_of_not_raises (hno : raisesOn i s = none) (h : exec i s = .next t) : t.fault = s.fault := by
  obtain ⟨u, hu, hexec⟩ := exec_of_not_raises hno
  cases h.symm.trans hexec
  exact hu.fault_eq

/-- No instruction's rule names the inputs of the coming cycle. -/
theorem inputs_notMem_partsOf (i : Instr) : Part.inputs ∉ partsOf i := by
  cases i <;> simp [partsOf]

theorem exec_due (h : exec i s = .next t) : t.due = s.due :=
  (exec_changesOnly h .inputs (inputs_notMem_partsOf i)).1

/-- The cycle takes its timer step in the state that the instruction answers: both timers, down by 1 if due. -/
theorem State.Running.step_of_decode (hrun : s.Running) (hdec : decode s.fetchWord = .ok i) (hno : raisesOn i s = none)
    (h : exec i s = .next t) :
    ∃ u, step s = .next u ∧ u.dt.toNat = (if s.due then t.dt.toNat - 1 else t.dt.toNat) ∧
      u.st.toNat = (if s.due then t.st.toNat - 1 else t.st.toNat) ∧ ChangesOnly [.dt, .st, .inputs] t u := by
  have hword : execWord s.fetchWord s = .next t := by rw [execWord_eq, hdec]; exact h
  have hfault : t.fault = none := (exec_fault_of_not_raises hno h).trans hrun.1
  refine ⟨t.endCycle, (hrun.step_eq hword).trans (congrArg _ (if_pos hfault)), ?_, ?_, t.changesOnly_endCycle⟩
  · rw [State.endCycle_dt, toNat_timerAfter, exec_due h]
  · rw [State.endCycle_st, toNat_timerAfter, exec_due h]

/-! ### The timer transfers (R202, R204, R205) -/

/-- Settles O28: the load writes Vx and leaves DT to the timer step. -/
theorem loadDelayTimerReadsDt : Obligations.LoadDelayTimerReadsDt := by
  refine ⟨fun x => decode_of_eq_encode (ofNat_eq_packXNN_const (by decide) x) rfl, fun x s => ?_⟩
  obtain ⟨t, ht, hpc, hv, hframe⟩ := exec_of_write (i := .ldVxDt x) (s := s) rfl
  refine ⟨t, ht, hpc, hv, hframe, fun hrun hdec => ?_⟩
  have hdt : t.dt = s.dt := hframe .dt (by decide)
  have hx : t.getV x = s.dt := (hv x).trans (if_pos rfl)
  obtain ⟨u, hu, hudt, -, hend⟩ := hrun.step_of_decode hdec rfl ht
  exact ⟨u, hu, (hend .v (by decide) x).trans hx, hdt ▸ hudt⟩

/-- Settles O30: the store comes first, and the timer step counts down from the stored value. -/
theorem setTimersThenTimerStep : Obligations.SetTimersThenTimerStep := by
  refine ⟨fun x => ⟨decode_of_eq_encode (ofNat_eq_packXNN_const (by decide) x) rfl,
    decode_of_eq_encode (ofNat_eq_packXNN_const (by decide) x) rfl⟩, fun x s => ⟨?_, ?_, fun hrun hdec => ?_, fun hrun hdec => ?_⟩⟩
  · exact ⟨_, rfl, rfl, rfl, by simp [changesOnly_iff]⟩
  · exact ⟨_, rfl, rfl, rfl, soundOn_iff _, by simp [changesOnly_iff]⟩
  · obtain ⟨u, hu, hdt, -, -⟩ := hrun.step_of_decode hdec rfl rfl
    exact ⟨u, hu, hdt⟩
  · obtain ⟨u, hu, -, hst, -⟩ := hrun.step_of_decode hdec rfl rfl
    exact ⟨u, hu, hst⟩

/-! ### The key wait (R203) -/

/-- With no key pressed the wait puts PC back where the advance found it: the state is as it was. -/
theorem exec_ldVxK_of_no_key (x : Reg) (h : ∀ k, s.keyDown k = false) : exec (.ldVxK x) s = .next s := by
  rcases s.firstKey_cases with ⟨k, -, hk, -⟩ | ⟨hnone, -⟩
  · simp [h k] at hk
  · refine (execLdVxK_eq x s).trans (congrArg Host.Outcome.next ?_)
    rw [hnone]
    apply State.ext_fields <;> simp

/-- A running core at `LD Vx, K` with no key pressed. -/
structure State.AwaitsKey (s : State) (x : Reg) : Prop where
  /-- The cycle fetches. -/
  running : s.Running
  /-- The word fetched is the wait's. -/
  atWait : decode s.fetchWord = .ok (.ldVxK x)
  /-- KEY holds no pressed key. -/
  noKey : ∀ k, s.keyDown k = false

/-- A waiting cycle is a timer step. -/
theorem State.AwaitsKey.step_eq (h : s.AwaitsKey x) :
    ∃ u, step s = .next u ∧ u.dt.toNat = (if s.due then s.dt.toNat - 1 else s.dt.toNat) ∧
      u.st.toNat = (if s.due then s.st.toNat - 1 else s.st.toNat) ∧ ChangesOnly [.dt, .st, .inputs] s u :=
  h.running.step_of_decode h.atWait rfl (exec_ldVxK_of_no_key x h.noKey)

/-- The number of a key fits in a byte. -/
theorem toNat_ofNat_key (k : Key) : (BitVec.ofNat 8 k.val).toNat = k.val := by
  have hk := key_lt k
  rw [BitVec.toNat_ofNat]
  omega

/-- Settles O29: the scan finds the lowest pressed key or none, and with none the cycle is a timer step. -/
theorem keyWaitTakesLowestKey : Obligations.KeyWaitTakesLowestKey := by
  refine ⟨fun x => decode_of_eq_encode (ofNat_eq_packXNN_const (by decide) x) rfl, fun x s => ?_⟩
  have hwait (hrun : s.Running) (hdec : decode s.fetchWord = .ok (.ldVxK x)) (hno : ∀ k, s.keyDown k = false) :=
    State.AwaitsKey.step_eq ⟨hrun, hdec, hno⟩
  rcases s.firstKey_cases with ⟨k, hfirst, hdown, hlow⟩ | ⟨-, hno⟩
  · have hexec : exec (.ldVxK x) s = .next (s.advancePc.setV x (BitVec.ofNat 8 k.val)) := by
      rw [exec, execLdVxK_eq, hfirst]
    obtain ⟨t, ht, hpc, hv, hframe⟩ := exec_of_write hexec
    refine ⟨t, ht, .inl ⟨k, hdown, hlow, hpc, fun r => ?_, hframe⟩, hwait⟩
    rw [hv, apply_ite BitVec.toNat, toNat_ofNat_key]
  · exact ⟨s, exec_ldVxK_of_no_key x hno, .inr ⟨hno, .refl [] s⟩, hwait⟩

/-! ### Many cycles -/

theorem ChangesOnly.running (h : ChangesOnly ps s t) (hpc : Part.pc ∉ ps) (hfault : Part.fault ∉ ps) (hrun : s.Running) :
    t.Running := by
  obtain ⟨hf, hle⟩ := hrun
  exact ⟨(h .fault hfault).trans hf, (h .pc hpc).symm ▸ hle⟩

theorem ChangesOnly.fetchWord_eq (h : ChangesOnly ps s t) (hpc : Part.pc ∉ ps) (hmem : Part.mem ∉ ps) :
    t.fetchWord = s.fetchWord := by
  have hp : t.pc = s.pc := h .pc hpc
  have hm : ∀ a, t.byteAt a = s.byteAt a := h .mem hmem
  rw [State.fetchWord, State.fetchWord, hp, hm, hm]

/-- What every step keeps, and the frame of every step, hold however many cycles run. -/
theorem events_replicate_cycle {P : State → Prop} (hstep : ∀ s, P s → ∃ u, step s = .next u ∧ P u ∧ ChangesOnly ps s u) (n : Nat)
    (hs : P s) : ∃ t, events (List.replicate n .cycle) s = .next t ∧ P t ∧ ChangesOnly ps s t := by
  induction n generalizing s with
  | zero => exact ⟨s, rfl, hs, .refl ps s⟩
  | succ n ih =>
    obtain ⟨u, hu, hPu, hsu⟩ := hstep s hs
    obtain ⟨t, ht, hPt, hut⟩ := ih hPu
    refine ⟨t, ?_, hPt, hsu.trans hut⟩
    rw [List.replicate_succ, events, event_cycle, hu]
    exact ht

/-- The wait goes on: a timer step moves neither PC nor the word there, and presses no key. -/
theorem State.AwaitsKey.of_changesOnly (hs : s.AwaitsKey x) (h : ChangesOnly [.dt, .st, .inputs] s t) : t.AwaitsKey x where
  running := h.running (by decide) (by decide) hs.running
  atWait := by rw [h.fetchWord_eq (by decide) (by decide), hs.atWait]
  noKey k := (h .key (by decide) k).trans (hs.noKey k)

/-- Settles O58: each cycle of the wait is a timer step, after which the core still waits. -/
theorem keyWaitHoldsWithoutAKey : Obligations.KeyWaitHoldsWithoutAKey := by
  intro n x s hrun hdec hno
  have hwaits (s : State) (hs : s.AwaitsKey x) : ∃ u, step s = .next u ∧ u.AwaitsKey x ∧ ChangesOnly [.dt, .st, .inputs] s u := by
    obtain ⟨u, hu, -, -, hframe⟩ := hs.step_eq
    exact ⟨u, hu, hs.of_changesOnly hframe, hframe⟩
  obtain ⟨t, ht, -, hframe⟩ := events_replicate_cycle hwaits n ⟨hrun, hdec, hno⟩
  exact ⟨t, ht, hframe⟩

end Sys2Proof.Machine

/-! PROOF. The statements about faults and the timer step (spec/60_exceptions.md R222, R223, R230). -/

namespace Sys2Proof.Machine

variable {i : Instr} {s t : State} {w : Word}

/-! ### Faults: the table and the entry (R222, R223) -/

theorem exec_fault (h : exec i s = .next t) (hf : s.fault = none) :
    t.fault = (raisesOn i s).map fun e => { cause := e.cause, pc := s.pc, word := encode i, info := e.info } := by
  rcases exec_cases h with ⟨e, he, rfl⟩ | ⟨hno, u, hu, rfl⟩
  · rw [he]
    rfl
  · rw [hno]
    exact hu.fault_eq.trans hf

/-- Settles O38: an instruction takes the fault that the table gives, or has its effect, which leaves FAULT. -/
theorem faultsAreExactlyTheTable : Obligations.FaultsAreExactlyTheTable := by
  refine ⟨rfl, rfl, rfl, rfl, fun i s hf => ?_, fun g s => ⟨_, rfl, rfl⟩⟩
  obtain ⟨t, ht⟩ := exec_next i s
  exact ⟨t, ht, exec_fault ht hf⟩

/-- An execute step that ends with FAULT set is the taking of a fault that the word's instruction raises. -/
theorem takeFault_of_execWord {r : FaultRecord} (h : execWord w s = .next t) (hf : s.fault = none) (ht : t.fault = some r) :
    ∃ i e, decode w = .ok i ∧ raisesOn i s = some e ∧ t = s.takeFault w e := by
  rcases execWord_cases h with ⟨i, hi, hexec⟩ | ⟨-, rfl⟩
  · rcases exec_cases hexec with ⟨e, he, rfl⟩ | ⟨-, u, hu, rfl⟩
    · exact ⟨i, e, hi, he, by rw [(encode_of_decode hi).2]⟩
    · simp [hu.fault_eq, hf] at ht
  · simp [hf] at ht

/-- A step that enters a fault ends with the execute step: the end of the cycle is left out. -/
theorem execWord_of_step_fault {r : FaultRecord} (h : step s = .next t) (hf : s.fault = none) (ht : t.fault = some r) :
    execWord s.fetchWord s = .next t := by
  rcases step_cases h with rfl | ⟨-, u, hu, rfl⟩
  · simp [hf] at ht
  · cases huf : u.fault with
    | none => simp [huf] at ht
    | some _ => simpa [huf] using hu

/-- Settles O39: such a step is the taking of a fault of the table, with the word fetched, from the state before. -/
theorem faultEntryIsPrecise : Obligations.FaultEntryIsPrecise := by
  intro s t r hf hstep ht
  obtain ⟨i, e, hi, he, rfl⟩ := takeFault_of_execWord (execWord_of_step_fault hstep hf ht) hf ht
  obtain rfl : ({ cause := e.cause, pc := s.pc, word := s.fetchWord, info := e.info } : FaultRecord) = r := Option.some.inj ht
  exact ⟨rfl, rfl, rfl, i, hi, he⟩

/-! ### The timer step (R230) -/

theorem execWord_due (h : execWord w s = .next t) : t.due = s.due := by
  rcases execWord_cases h with ⟨i, -, hexec⟩ | ⟨-, rfl⟩
  · exact exec_due hexec
  · rfl

/-- Settles O31: without a fault the end of the cycle follows, and the execute step has left the input due as it was. -/
theorem timerStepEndsTheCycle : Obligations.TimerStepEndsTheCycle := by
  intro s t hrun hexec hf
  refine ⟨t.endCycle, (hrun.step_eq hexec).trans (congrArg _ (if_pos hf)), ?_, ?_, t.changesOnly_endCycle⟩
  · rw [State.endCycle_dt, toNat_timerAfter, execWord_due hexec]
  · rw [State.endCycle_st, toNat_timerAfter, execWord_due hexec]

end Sys2Proof.Machine

/-! PROOF. The statements about the host's operations (spec/60_exceptions.md R221, R224, R234): the keypad ports, and what a faulted and
what an exhausted core keep through any events but Reset. -/

namespace Sys2Proof.Machine

variable {s t u : State} {c : Config} {ps : List Part} {op : HostOp} {es : List Event}

/-! ### The keypad ports (R234) -/

section Keypad

variable {k : Int}

theorem portSetKey_of_mem (h : 0 ≤ k ∧ k ≤ 15) (pressed : Bool) (s : State) :
    portSetKey k pressed s = .ok (s.putKey ⟨k.toNat, show k.toNat < 16 by omega⟩ pressed) := by
  rw [portSetKey, keyIndex_of_mem h]

theorem portSetKey_of_not_mem (h : ¬(0 ≤ k ∧ k ≤ 15)) (pressed : Bool) (s : State) :
    portSetKey k pressed s = .error .invalidKeyIndex := by
  rw [portSetKey, keyIndex_of_not_mem h]

theorem portIsKeyPressed_of_mem (h : 0 ≤ k ∧ k ≤ 15) (s : State) :
    portIsKeyPressed k s = .ok (s.keyDown ⟨k.toNat, show k.toNat < 16 by omega⟩) := by
  rw [portIsKeyPressed, keyIndex_of_mem h]

theorem portIsKeyPressed_of_not_mem (h : ¬(0 ≤ k ∧ k ≤ 15)) (s : State) : portIsKeyPressed k s = .error .invalidKeyIndex := by
  rw [portIsKeyPressed, keyIndex_of_not_mem h]

/-- The key written is the one whose number is the index. -/
theorem keyDown_putKey_toNat (h : 0 ≤ k ∧ k ≤ 15) (pressed : Bool) (s : State) (j : Key) :
    (s.putKey ⟨k.toNat, show k.toNat < 16 by omega⟩ pressed).keyDown j = if (j.val : Int) = k then pressed else s.keyDown j := by
  have hj : j = ⟨k.toNat, show k.toNat < 16 by omega⟩ ↔ (j.val : Int) = k := Fin.ext_iff.trans (by simp only; omega)
  simp only [State.keyDown_putKey, hj]

end Keypad

/-- Settles O55: the index check passes exactly for a key, and a failed port hands the state back (R226). -/
theorem keypadPortsSetAndReadOneKey : Obligations.KeypadPortsSetAndReadOneKey := by
  intro k b s
  split
  next h =>
    exact ⟨⟨_, congrArg (writeReply s) (portSetKey_of_mem h b s), by simp [changesOnly_iff], keyDown_putKey_toNat h b s⟩,
      congrArg (fun r => (s, boolReply r)) (portIsKeyPressed_of_mem h s)⟩
  next h =>
    exact ⟨congrArg (writeReply s) (portSetKey_of_not_mem h b s),
      congrArg (fun r => (s, boolReply r)) (portIsKeyPressed_of_not_mem h s)⟩

/-! ### Host operations and events without Reset (R224, R263) -/

theorem writeReply_changesOnly {res : Except PortError State} (h : ∀ t, res = .ok t → ChangesOnly ps s t) :
    ChangesOnly ps s (writeReply s res).1 := by
  cases res with
  | ok t => exact h t rfl
  | error _ => exact .refl ps s

theorem changesOnly_of_portLoadRom {bytes : List Byte} (h : portLoadRom bytes s c = .ok t) : ChangesOnly [.mem] s t := by
  unfold portLoadRom at h
  split at h
  next => cases h
  next =>
    cases h
    simp [changesOnly_iff]

theorem changesOnly_of_portLoadRomFromHexText {text : List Char} (h : portLoadRomFromHexText text s c = .ok t) :
    ChangesOnly [.mem] s t := by
  unfold portLoadRomFromHexText at h
  split at h
  next => exact changesOnly_of_portLoadRom h
  next => cases h

theorem changesOnly_of_portSetKey {k : Int} {pressed : Bool} (h : portSetKey k pressed s = .ok t) : ChangesOnly [.key] s t := by
  unfold portSetKey at h
  split at h
  next =>
    cases h
    simp [changesOnly_iff]
  next => cases h

/-- A host operation but Reset writes MEM or KEY, or is a query. -/
theorem hostOp_changesOnly (s : State) (c : Config) (h : op ≠ .reset) : ChangesOnly [.mem, .key] s (hostOp op s c).1 := by
  cases op with
  | reset => exact absurd rfl h
  | loadRom bytes => exact writeReply_changesOnly fun _ ht => (changesOnly_of_portLoadRom ht).mono (by simp)
  | loadRomFromHexText text => exact writeReply_changesOnly fun _ ht => (changesOnly_of_portLoadRomFromHexText ht).mono (by simp)
  | setKey k pressed => exact writeReply_changesOnly fun _ ht => (changesOnly_of_portSetKey ht).mono (by simp)
  | isKeyPressed | pixelAt | memAt | delayTimer | soundTimer | status => exact .refl _ s

theorem State.changesOnly_setInputs (s : State) (d : Bool) (b : Byte) (n : Nat) : ChangesOnly [.inputs] s (s.setInputs d b n) := by
  simp [changesOnly_iff]

theorem cycleCount_cons (e : Event) (es : List Event) : cycleCount (e :: es) = e.cycles + cycleCount es :=
  List.sum_cons

/-- What every event but Reset does from the states with P, and P with it, holds of a list of such events: `R n` is a relation of the
states before and after events that hold n cycles. -/
theorem events_of_event {P : State → Prop} {R : Nat → State → State → Prop} (hrefl : ∀ s, R 0 s s)
    (htrans : ∀ {m n s t u}, R m s t → R n t u → R (m + n) s u)
    (hevent : ∀ e, e ≠ .host .reset → ∀ s, P s → ∃ t, event e s c = .next t ∧ P t ∧ R e.cycles s t)
    (hes : ∀ e ∈ es, e ≠ .host .reset) (hs : P s) : ∃ t, events es s c = .next t ∧ P t ∧ R (cycleCount es) s t := by
  induction es generalizing s with
  | nil => exact ⟨s, rfl, hs, hrefl s⟩
  | cons e rest ih =>
    obtain ⟨he, hrest⟩ := List.forall_mem_cons.mp hes
    obtain ⟨u, hu, hPu, hsu⟩ := hevent e he s hs
    obtain ⟨t, ht, hPt, hut⟩ := ih hrest hPu
    refine ⟨t, ?_, hPt, cycleCount_cons e rest ▸ htrans hsu hut⟩
    rw [events, hu]
    exact ht

/-! ### A faulted core (R224) -/

/-- A faulted core's cycle does nothing, and no host operation but Reset writes FAULT. -/
theorem event_of_faulted {e : Event} (he : e ≠ .host .reset) (hs : s.fault.isSome = true) :
    ∃ t, event e s = .next t ∧ ChangesOnly [.mem, .key, .inputs] s t := by
  cases e with
  | cycle => exact ⟨s, cycle_of_faulted hs, .refl _ s⟩
  | cycleWith d b => exact ⟨_, cycle_of_faulted hs, (s.changesOnly_setInputs d b s.draws).mono (by simp)⟩
  | host op => exact ⟨_, rfl, (hostOp_changesOnly s hw fun h => he (congrArg Event.host h)).mono (by simp)⟩

/-- Settles O40: every event but Reset leaves FAULT and changes at most MEM, KEY and the inputs; Reset empties FAULT. -/
theorem onlyResetLeavesAFault : Obligations.OnlyResetLeavesAFault := by
  intro es s r hs
  have hevent (e : Event) (he : e ≠ .host .reset) (s : State) (hs : s.fault = some r) :
      ∃ t, event e s = .next t ∧ t.fault = some r ∧ ChangesOnly [.mem, .key, .inputs] s t := by
    obtain ⟨t, ht, hframe⟩ := event_of_faulted he (Option.isSome_of_eq_some hs)
    exact ⟨t, ht, (hframe .fault (by decide)).trans hs, hframe⟩
  refine ⟨cycle_of_faulted (Option.isSome_of_eq_some hs), ⟨_, rfl, rfl⟩, fun hes => ?_⟩
  obtain ⟨t, ht, hfault, hframe⟩ := events_of_event (R := fun _ => ChangesOnly [.mem, .key, .inputs])
    (.refl _) .trans hevent hes hs
  exact ⟨t, ht, hfault, hfault, hframe⟩

/-! ### An exhausted core (R221, decision D8) -/

/-- A core whose cycles fetch nothing because PC is above PC_LIMIT. -/
structure State.Exhausted (s : State) (c : Config) : Prop where
  /-- The FAULT test, which comes first, lets the cycle go on. -/
  noFault : s.fault = none
  /-- PC is above the limit. -/
  pcAbove : s.exhausted c = true

theorem State.Exhausted.of_changesOnly (hs : s.Exhausted c) (h : ChangesOnly ps s t) (hpc : Part.pc ∉ ps)
    (hfault : Part.fault ∉ ps) : t.Exhausted c where
  noFault := (h .fault hfault).trans hs.noFault
  pcAbove := by
    have ht : t.pc = s.pc := h .pc hpc
    rw [State.exhausted, ht]
    exact hs.pcAbove

theorem State.toNat_dt_exhaustedCycle (s : State) (tick : Bool) :
    (s.exhaustedCycle tick).dt.toNat = if tick && s.due then s.dt.toNat - 1 else s.dt.toNat := by
  cases tick
  · rfl
  · exact toNat_timerAfter s.due s.dt

theorem State.toNat_st_exhaustedCycle (s : State) (tick : Bool) :
    (s.exhaustedCycle tick).st.toNat = if tick && s.due then s.st.toNat - 1 else s.st.toNat := by
  cases tick
  · rfl
  · exact toNat_timerAfter s.due s.st

theorem State.changesOnly_exhaustedCycle (s : State) (tick : Bool) : ChangesOnly [.dt, .st, .inputs] s (s.exhaustedCycle tick) := by
  cases tick
  · exact .refl _ s
  · exact s.changesOnly_endCycle

/-- From `s` to `t` both timers took the same number of timer steps, at most n, and none unless exhausted cycles tick; and but for the
timers only the host's writes and the inputs changed. -/
def TimersStepped (c : Config) (n : Nat) (s t : State) : Prop :=
  ∃ k ≤ n, (c.timersTickWhenExhausted = false → k = 0) ∧ t.dt.toNat = s.dt.toNat - k ∧ t.st.toNat = s.st.toNat - k ∧
    ChangesOnly [.dt, .st, .mem, .key, .inputs] s t

/-- No timer step: the host wrote, or the inputs were set. -/
theorem TimersStepped.of_changesOnly (n : Nat) (h : ChangesOnly [.mem, .key, .inputs] s t) : TimersStepped c n s t := by
  have hdt : t.dt = s.dt := h .dt (by decide)
  have hst : t.st = s.st := h .st (by decide)
  exact ⟨0, Nat.zero_le n, fun _ => rfl, by rw [hdt, Nat.sub_zero], by rw [hst, Nat.sub_zero], h.mono (by simp)⟩

theorem TimersStepped.trans {m n : Nat} (h : TimersStepped c m s t) (h' : TimersStepped c n t u) : TimersStepped c (m + n) s u := by
  obtain ⟨j, hj, hj0, hdt, hst, hframe⟩ := h
  obtain ⟨k, hk, hk0, hdt', hst', hframe'⟩ := h'
  refine ⟨j + k, Nat.add_le_add hj hk, fun hc => ?_, ?_, ?_, hframe.trans hframe'⟩
  · rw [hj0 hc, hk0 hc]
  · rw [hdt', hdt, Nat.sub_sub]
  · rw [hst', hst, Nat.sub_sub]

theorem State.timersStepped_exhaustedCycle (s : State) (c : Config) :
    TimersStepped c 1 s (s.exhaustedCycle c.timersTickWhenExhausted) := by
  refine ⟨if c.timersTickWhenExhausted && s.due then 1 else 0, by split <;> decide, fun hc => by simp [hc], ?_, ?_,
    (s.changesOnly_exhaustedCycle _).mono (by simp)⟩
  · rw [State.toNat_dt_exhaustedCycle]
    split <;> rfl
  · rw [State.toNat_st_exhaustedCycle]
    split <;> rfl

theorem TimersStepped.exhausted {n : Nat} (h : TimersStepped c n s t) (hs : s.Exhausted c) : t.Exhausted c := by
  obtain ⟨_, -, -, -, -, hframe⟩ := h
  exact hs.of_changesOnly hframe (by decide) (by decide)

theorem State.Exhausted.cycle_eq (hs : s.Exhausted c) : cycle s c = .next (s.exhaustedCycle c.timersTickWhenExhausted) :=
  cycle_of_exhausted_with hs.noFault hs.pcAbove

/-- An exhausted core's cycle is at most a timer step, and no host operation but Reset writes the timers. -/
theorem State.Exhausted.event_timersStepped {e : Event} (hs : s.Exhausted c) (he : e ≠ .host .reset) :
    ∃ t, event e s c = .next t ∧ TimersStepped c e.cycles s t := by
  cases e with
  | cycle => exact ⟨_, hs.cycle_eq, s.timersStepped_exhaustedCycle c⟩
  | cycleWith d b =>
    have hinputs := s.changesOnly_setInputs d b s.draws
    refine ⟨_, (hs.of_changesOnly hinputs (by decide) (by decide)).cycle_eq, ?_⟩
    exact (TimersStepped.of_changesOnly 0 (hinputs.mono (by simp))).trans (State.timersStepped_exhaustedCycle _ c)
  | host op =>
    exact ⟨_, rfl, .of_changesOnly 0 ((hostOp_changesOnly s c fun h => he (congrArg Event.host h)).mono (by simp))⟩

/-- Settles O41: an exhausted cycle is the timer step where the parameter asks for it, and else nothing; no event but Reset moves PC or
writes FAULT, so the core stays exhausted and the timer steps add up. -/
theorem exhaustionLastsUntilReset : Obligations.ExhaustionLastsUntilReset := by
  refine ⟨fun c es s hf hpc => ?_, fun s hf hpc => cycle_of_exhausted hf ((State.exhausted_iff s).mpr hpc)⟩
  have hs : s.Exhausted c := ⟨hf, (s.exhausted_iff_with c).mpr hpc⟩
  refine ⟨⟨_, hs.cycle_eq, s.toNat_dt_exhaustedCycle _, s.toNat_st_exhaustedCycle _, s.changesOnly_exhaustedCycle _,
    fun hc => by rw [hc]; rfl⟩, fun hes => ?_⟩
  have hevent (e : Event) (he : e ≠ .host .reset) (s : State) (hs : s.Exhausted c) :
      ∃ t, event e s c = .next t ∧ t.Exhausted c ∧ TimersStepped c e.cycles s t := by
    obtain ⟨t, ht, hst⟩ := hs.event_timersStepped he
    exact ⟨t, ht, hst.exhausted hs, hst⟩
  obtain ⟨t, ht, htex, k, hk, hk0, hdt, hst, hframe⟩ := events_of_event (fun s => .of_changesOnly 0 (.refl _ s))
    TimersStepped.trans hevent hes hs
  exact ⟨t, k, ht, htex.noFault, htex.pcAbove, hk, hk0, hdt, hst, hframe⟩

end Sys2Proof.Machine

/-! PROOF. The inputs of a cycle (spec/60_exceptions.md R230, R235; spec/30_encoding.md R83): every instruction but RND commutes with a
change of them. -/

namespace Sys2Proof.Machine

variable {i : Instr} {s t : State} {d : Bool} {b : Byte} {n : Nat}

/-- An instruction whose meaning commutes with a change of the inputs. -/
theorem exec_setInputs_of_eq {f : State → State} (heq : ∀ s, exec i s = .next (f s))
    (hf : f (s.setInputs d b n) = (f s).setInputs d b n) (h : exec i s = .next t) :
    exec i (s.setInputs d b n) = .next (t.setInputs d b n) := by
  cases (heq s).symm.trans h
  rw [heq, hf]

theorem ite_setInputs {p : Prop} [Decidable p] {s' t' : State} (hs : s' = s.setInputs d b n) (ht : t' = t.setInputs d b n) :
    (if p then s' else t') = (if p then s else t).setInputs d b n := by
  rw [hs, ht, apply_ite (State.setInputs · d b n)]

theorem State.firstKey_setInputs (s : State) : (s.setInputs d b n).firstKey = s.firstKey := rfl

theorem State.skipIf_setInputs (s : State) (taken : Bool) :
    (s.setInputs d b n).skipIf taken = (s.skipIf taken).setInputs d b n :=
  ite_setInputs rfl rfl

theorem State.drawPixel_setInputs (s : State) (px : Column) (py : Row) :
    (s.setInputs d b n).drawPixel px py = (s.drawPixel px py).setInputs d b n :=
  congrArg (State.setPixel · px py (!s.pixel px py)) (ite_setInputs (s := s.setV vF 1) (t := s) rfl rfl)

theorem State.drawCells_setInputs (s : State) (ps : List (Column × Row)) :
    (s.setInputs d b n).drawCells ps = (s.drawCells ps).setInputs d b n :=
  List.foldl_hom (State.setInputs · d b n) fun u p => State.drawPixel_setInputs u p.1 p.2

/-- The key tests: what is done with a key, or the fault. -/
theorem dite_setInputs {p : Prop} [Decidable p] {f f' : p → State} {s' : State} (hf : ∀ h, f' h = (f h).setInputs d b n)
    (hs : s' = s.setInputs d b n) : (if h : p then f' h else s') = (if h : p then f h else s).setInputs d b n := by
  rw [apply_dite (State.setInputs · d b n), hs]
  exact dite_congr rfl hf fun _ => rfl

/-- Fx65: what is loaded depends on I and MEM, and the other registers stay. -/
theorem exec_loadRegs_setInputs {x : Reg} (h : exec (.loadRegs x) s = .next t) :
    exec (.loadRegs x) (s.setInputs d b n) = .next (t.setInputs d b n) := by
  have hs := execLoadRegs_eq x s
  have hs' := execLoadRegs_eq x (s.setInputs d b n)
  rw [State.setInputs_i] at hs'
  by_cases hb : 4096 < s.i.toNat + (x.val + 1)
  · rw [if_pos hb] at hs hs'
    cases hs.symm.trans h
    exact hs'
  · rw [if_neg hb] at hs hs'
    obtain ⟨f, hexec, hf⟩ := hs
    obtain ⟨f', hexec', hf'⟩ := hs'
    obtain rfl : f' = f :=
      State.v_ext (s := { (s.setInputs d b n).advancePc with v := f' }) (t := { s.advancePc with v := f }) fun q =>
        (hf' q).trans (hf q).symm
    cases hexec.symm.trans h
    exact hexec'

/-- No instruction but RND looks at the inputs of the cycle. -/
theorem exec_setInputs (hrnd : ∀ x nn, i ≠ .rnd x nn) (h : exec i s = .next t) :
    exec i (s.setInputs d b n) = .next (t.setInputs d b n) := by
  cases i
  case rnd x nn => exact absurd rfl (hrnd x nn)
  case loadRegs => exact exec_loadRegs_setInputs h
  case ret => exact exec_setInputs_of_eq execRet_eq (by rw [State.setInputs_stack]; cases s.stack <;> rfl) h
  case ldVxK x => exact exec_setInputs_of_eq (execLdVxK_eq x) (by rw [State.firstKey_setInputs]; cases s.firstKey <;> rfl) h
  case call nnn => exact exec_setInputs_of_eq (execCall_eq nnn) (ite_setInputs rfl rfl) h
  case ldB x => exact exec_setInputs_of_eq (execLdB_eq x) (ite_setInputs rfl rfl) h
  case storeRegs x => exact exec_setInputs_of_eq (execStoreRegs_eq x) (ite_setInputs rfl rfl) h
  case drw x y m => exact exec_setInputs_of_eq (execDrw_eq x y m) (ite_setInputs rfl ((s.advancePc.setV vF 0).drawCells_setInputs _)) h
  case skp x => exact exec_setInputs_of_eq (execSkp_eq x) (dite_setInputs (fun _ => s.advancePc.skipIf_setInputs _) rfl) h
  case sknp x => exact exec_setInputs_of_eq (execSknp_eq x) (dite_setInputs (fun _ => s.advancePc.skipIf_setInputs _) rfl) h
  case seImm | sneImm | seReg | sneReg => exact exec_setInputs_of_eq (fun _ => rfl) (s.advancePc.skipIf_setInputs _) h
  all_goals exact exec_setInputs_of_eq (fun _ => rfl) rfl h

/-- RND reads the byte rnd, and not due. -/
theorem exec_setInputs_due (h : exec i s = .next t) :
    exec i (s.setInputs d s.rnd s.draws) = .next (t.setInputs d s.rnd s.draws) := by
  by_cases hrnd : ∃ x nn, i = .rnd x nn
  · obtain ⟨x, nn, rfl⟩ := hrnd
    cases h
    rfl
  · exact exec_setInputs (fun x nn hi => hrnd ⟨x, nn, hi⟩) h

/-- Settles O46: RND reads rnd, and every other instruction commutes with a change of the inputs. -/
theorem inputsReachOnlyRndAndTheTimers : Obligations.InputsReachOnlyRndAndTheTimers := by
  intro i s t d b h
  obtain ⟨-, hrnd, hdraws⟩ := exec_changesOnly h .inputs (inputs_notMem_partsOf i)
  refine ⟨(exec_setInputs_due h).trans ?_, fun hi => (exec_setInputs hi h).trans ?_⟩
  · rw [← hrnd, ← hdraws]
    rfl
  · rw [← hdraws]
    rfl

end Sys2Proof.Machine

/-! PROOF. Reset, and the invariant through every list of events (spec/70_reset_and_hazards.md R260, R263, R265). -/

namespace Sys2Proof.Machine

variable {s t : State}

/-! ### Reset (R260, R261) -/

/-- Reset leaves the inputs, and gives every piece of the core's state its value at power-on. -/
theorem changesOnly_portReset (s : State) : ChangesOnly [.inputs] State.reset (portReset s) :=
  State.changesOnly_setInputs State.reset s.due s.rnd s.draws

/-- Settles O52: Reset is the power-on state with the inputs kept, and its MEM, which lists nothing, reads as the font and zeros. -/
theorem resetGivesTheStatedValues : Obligations.ResetGivesTheStatedValues := by
  intro s
  have hpower := changesOnly_portReset s
  refine ⟨portReset s, rfl, hpower, by simp [changesOnly_iff, portReset], fun r => ?_, rfl, rfl, rfl, rfl, rfl, fun k => ?_,
    fun px py => ?_, rfl, unlistedByte_eq⟩
  · exact (hpower .v (by decide) r).trans (State.resetOf_getV hw r)
  · exact (hpower .key (by decide) k).trans (State.resetOf_keyDown hw k)
  · exact (hpower .fb (by decide) px py).trans (State.resetOf_pixel hw px py)

/-- Settles O50: MEM lists nothing, STACK and FAULT are empty, and PC is 0x200. -/
theorem resetHasInvariant : Obligations.ResetHasInvariant where
  memory := Memory.wf_nil
  depth := Nat.zero_le 16
  returns := fun _ ha => absurd ha List.not_mem_nil
  pcBound := by decide
  faultRecord := fun _ hr => nomatch hr

/-! ### What the host's writes keep of the invariant -/

/-- What an instruction raises depends on STACK, I and the registers. -/
theorem raisesOn_congr (hstack : t.stack = s.stack) (hi : t.i = s.i) (hv : ∀ r, t.getV r = s.getV r) (i : Instr) :
    raisesOn i t = raisesOn i s := by
  cases i
  case ret | call => simp only [raisesOn, hstack]
  case drw | ldB | storeRegs | loadRegs => simp only [raisesOn, hi]
  case skp | sknp => simp only [raisesOn, hv]
  all_goals rfl

/-- Of the parts that the host's writes change, the invariant speaks of MEM only, and of its form only. -/
theorem State.Inv.of_changesOnly (h : s.Inv) (hframe : ChangesOnly [.mem, .key, .inputs] s t) (hmem : t.mem.wf) : t.Inv := by
  have hstack : t.stack = s.stack := hframe .stack (by decide)
  have hpc : t.pc = s.pc := hframe .pc (by decide)
  have hfault : t.fault = s.fault := hframe .fault (by decide)
  refine ⟨hmem, hstack ▸ h.depth, hstack ▸ h.returns, hpc ▸ h.pcBound, fun r hr => ?_⟩
  obtain ⟨hrpc, hle, i, hdec, hraises⟩ := h.faultRecord r (hfault ▸ hr)
  refine ⟨hrpc.trans hpc.symm, hpc ▸ hle, i, hdec, ?_⟩
  rw [raisesOn_congr hstack (hframe .i (by decide)) (hframe .v (by decide)), hraises]

theorem writeReply_keeps {P : State → Prop} {res : Except PortError State} (hs : P s) (h : ∀ t, res = .ok t → P t) :
    P (writeReply s res).1 := by
  cases res with
  | ok t => exact h t rfl
  | error _ => exact hs

/-- A ROM that is not refused ends inside MEM. -/
theorem mem_wf_of_portLoadRom {bytes : List Byte} (hs : s.mem.wf) (h : portLoadRom bytes s = .ok t) : t.mem.wf := by
  by_cases hlen : 0xE00 < bytes.length
  · cases (portLoadRom_of_gt s hlen).symm.trans h
  · cases (portLoadRom_of_not_gt s hlen).symm.trans h
    exact Memory.wf_writeAll bytes (Memory.wf_clearProgram hs) (show 0x200 + bytes.length ≤ 4096 by omega)

theorem mem_wf_of_portLoadRomFromHexText {text : List Char} (hs : s.mem.wf) (h : portLoadRomFromHexText text s = .ok t) :
    t.mem.wf := by
  cases hp : hexPairs (text.filter fun c => !isWhite c) with
  | some bytes => exact mem_wf_of_portLoadRom hs ((portLoadRomFromHexText_of_some s hp).symm.trans h)
  | none => cases (portLoadRomFromHexText_of_none s hp).symm.trans h

theorem mem_wf_of_portSetKey {k : Int} {pressed : Bool} (hs : s.mem.wf) (h : portSetKey k pressed s = .ok t) : t.mem.wf := by
  unfold portSetKey at h
  split at h
  next =>
    cases h
    exact hs
  next => cases h

theorem hostOp_mem_wf (op : HostOp) (hs : s.mem.wf) : (hostOp op s).1.mem.wf := by
  cases op with
  | reset => exact Memory.wf_nil
  | loadRom bytes => exact writeReply_keeps hs fun _ => mem_wf_of_portLoadRom hs
  | loadRomFromHexText text => exact writeReply_keeps hs fun _ => mem_wf_of_portLoadRomFromHexText hs
  | setKey k pressed => exact writeReply_keeps hs fun _ => mem_wf_of_portSetKey hs
  | isKeyPressed | pixelAt | memAt | delayTimer | soundTimer | status => exact hs

/-- Reset makes the invariant hold, and every other host operation writes MEM in its canonical form or KEY. -/
theorem State.Inv.hostOp (h : s.Inv) (op : HostOp) : (hostOp op s).1.Inv := by
  by_cases hop : op = .reset
  · subst hop
    exact resetHasInvariant.of_changesOnly ((changesOnly_portReset s).mono (by simp)) Memory.wf_nil
  · exact h.of_changesOnly ((hostOp_changesOnly s hw hop).mono (by simp)) (hostOp_mem_wf op h.memory)

/-! ### Events (R263, R265) -/

theorem State.Inv.setInputs (h : s.Inv) (d : Bool) (b : Byte) (n : Nat) : (s.setInputs d b n).Inv :=
  h.of_changesOnly ((s.changesOnly_setInputs d b n).mono (by simp)) h.memory

/-- A cycle, with whatever inputs, is a step; between cycles the host operates. -/
theorem State.Inv.of_event {e : Event} (h : s.Inv) (ht : event e s = .next t) : t.Inv := by
  cases e with
  | cycle => exact h.of_step ht
  | cycleWith d b => exact (h.setInputs d b s.draws).of_step ht
  | host op =>
    cases ht
    exact h.hostOp op

/-- Settles O49: every event answers a next state and keeps the invariant, and so does, event by event, the list. -/
theorem eventsKeepInvariant : Obligations.EventsKeepInvariant := by
  intro es
  induction es with
  | nil => exact fun s hs => ⟨s, rfl, hs⟩
  | cons e rest ih =>
    intro s hs
    obtain ⟨u, hu⟩ := event_next e s
    obtain ⟨t, ht, hinv⟩ := ih u (hs.of_event hu)
    refine ⟨t, ?_, hinv⟩
    rw [events, hu]
    exact ht

end Sys2Proof.Machine

/-! PROOF. The end of a run (spec/70_reset_and_hazards.md R269): the four ends as conditions on the state's numbers, the idle loop, and the
first boundary at which an end holds. -/

namespace Sys2Proof.Machine

variable {s t : State} {w a : Word} {r : EndReason} {e : Event} {es : List Event} {left done n : Nat}

/-! ### The ends of R269 -/

/-- The word 1nnn as a number. -/
theorem toNat_encode_jp (nnn : Imm12) : (encode (.jp nnn)).toNat = 0x1000 + nnn.toNat := by
  have hnnn := nnn.isLt
  rw [encode, packNNN_eq_ofNat, BitVec.toNat_ofNat]
  simp only [BitVec.reduceToNat]
  omega

/-- A word jumps to the address a, which an immediate can spell, iff it is the number 0x1000 + a. -/
theorem decode_eq_jp_iff (ha : a.toNat ≤ 0x0FFE) :
    (∃ nnn : Imm12, decode w = .ok (.jp nnn) ∧ nnn.setWidth 16 = a) ↔ w.toNat = 0x1000 + a.toNat := by
  constructor
  · rintro ⟨nnn, hdec, rfl⟩
    obtain ⟨-, rfl⟩ := encode_of_decode hdec
    rw [toNat_encode_jp, ← toNat_zextAddr nnn, zextAddr]
  · intro hw
    have hnnn : (a.setWidth 12).toNat = a.toNat := by
      rw [BitVec.toNat_setWidth]
      omega
    refine ⟨a.setWidth 12, decode_of_eq_encode (BitVec.eq_of_toNat_eq ?_) rfl, BitVec.eq_of_toNat_eq ?_⟩
    · rw [toNat_encode_jp, hnnn, hw]
    · rw [BitVec.toNat_setWidth, hnnn, Nat.mod_eq_of_lt a.isLt]

/-- In a core that fetches, only the word at PC can end the run. -/
theorem State.Running.endOfRun_eq (hrun : s.Running) :
    endOfRun s = if s.fetchWord.toNat = 0x1000 + s.pc.toNat then some .selfJump else none := by
  simp only [endOfRun, hrun.1, hrun.exhausted_eq, Option.isSome_none, Bool.false_eq_true, if_false, ← decode_eq_jp_iff hrun.2]
  split
  next nnn hdec => simp [hdec]
  next hno => exact (if_neg fun ⟨nnn, hdec, _⟩ => hno nnn hdec).symm

/-- The four ends of R269, in its order. -/
theorem endAt_eq (left : Nat) (s : State) :
    endAt left s = if s.fault ≠ none then some .failed else if 0x0FFE < s.pc.toNat then some .exhausted
      else if s.fetchWord.toNat = 0x1000 + s.pc.toNat then some .selfJump
      else if left = 0 then some .hostStopped else none := by
  by_cases hf : s.fault = none
  · by_cases hpc : 0x0FFE < s.pc.toNat
    · simp [endAt, endOfRun, hf, hpc, (State.exhausted_iff s).mpr hpc]
    · have hrun : s.Running := ⟨hf, Nat.le_of_not_lt hpc⟩
      rw [endAt, hrun.endOfRun_eq, if_neg (not_not.mpr hf), if_neg hpc]
      split_ifs <;> rfl
  · simp [endAt, endOfRun, hf, Option.isSome_iff_ne_none]

theorem endAt_eq_none_iff :
    endAt left s = none ↔ s.Running ∧ s.fetchWord.toNat ≠ 0x1000 + s.pc.toNat ∧ 0 < left := by
  rw [endAt_eq]
  simp [ite_eq_iff, State.Running, Nat.pos_iff_ne_zero, and_assoc]

/-- What `endAt` finds in a state reached after `done` cycles is the end of R269 there, in a run of `done + left` cycles. -/
theorem holds_of_endAt (h : endAt left s = some r) (done : Nat) : RunEnd.Holds ⟨r, done, s⟩ (done + left) := by
  rw [endAt_eq] at h
  split_ifs at h with hf hpc hjump hleft <;> cases h
  · exact hf
  · exact ⟨not_not.mp hf, hpc⟩
  · exact ⟨⟨not_not.mp hf, Nat.le_of_not_lt hpc⟩, hjump⟩
  · exact ⟨⟨not_not.mp hf, Nat.le_of_not_lt hpc⟩, hjump, by rw [hleft, Nat.add_zero]⟩

/-! ### The idle loop -/

/-- A core at a self-jump fetches the jump to its PC. -/
theorem endOfRun_eq_selfJump_iff :
    endOfRun s = some .selfJump ↔ s.Running ∧ s.fetchWord.toNat = 0x1000 + s.pc.toNat := by
  constructor
  · intro h
    have hend : endAt 0 s = some .selfJump := by rw [endAt, h]
    exact holds_of_endAt hend 0
  · rintro ⟨hrun, hjump⟩
    rw [hrun.endOfRun_eq, if_pos hjump]

/-- The jump takes PC to where it is: a cycle is a timer step, and the core is at the self-jump again. -/
theorem step_of_selfJump (h : endOfRun s = some .selfJump) :
    ∃ u, step s = .next u ∧ endOfRun u = some .selfJump ∧ ChangesOnly [.dt, .st, .inputs] s u := by
  rw [endOfRun_eq_selfJump_iff] at h
  obtain ⟨hrun, hjump⟩ := h
  obtain ⟨nnn, hdec, hpc⟩ := (decode_eq_jp_iff hrun.2).mpr hjump
  have hexec : exec (.jp nnn) s = .next s := congrArg (fun a => Host.Outcome.next (s.setPc a)) hpc
  obtain ⟨u, hu, -, -, hframe⟩ := hrun.step_of_decode hdec rfl hexec
  have hupc : u.pc = s.pc := hframe .pc (by decide)
  refine ⟨u, hu, endOfRun_eq_selfJump_iff.mpr ⟨hframe.running (by decide) (by decide) hrun, ?_⟩, hframe⟩
  rw [hframe.fetchWord_eq (by decide) (by decide), hupc, hjump]

/-- Settles O59: each cycle of the idle loop is a timer step, after which the core is still in it. -/
theorem selfJumpRepeatsForever : Obligations.SelfJumpRepeatsForever :=
  fun n _ h => events_replicate_cycle (fun _ => step_of_selfJump) n h

/-! ### The first boundary at which an end holds -/

theorem Event.cycles_le_one (e : Event) : e.cycles ≤ 1 := by
  cases e
  exacts [Nat.le_refl 1, Nat.le_refl 1, Nat.zero_le 1]

theorem runGoesOn_nil (h : endAt n s = none) : RunGoesOn n [] s := by
  obtain ⟨hrun, hjump, hpos⟩ := endAt_eq_none_iff.mp h
  exact ⟨s, rfl, hrun, hjump, hpos⟩

theorem RunGoesOn.cons (ht : event e s = .next t) (h : RunGoesOn (n - e.cycles) es t) : RunGoesOn n (e :: es) s := by
  obtain ⟨u, hu, hrun, hjump, hcount⟩ := h
  refine ⟨u, ?_, hrun, hjump, ?_⟩
  · rw [events, ht]
    exact hu
  · rw [cycleCount_cons]
    omega

/-- A run that goes on before an event, and at the boundaries after it. -/
theorem runGoesOn_take_cons {k : Nat} (hend : endAt n s = none) (ht : event e s = .next t)
    (h : ∀ j < k, RunGoesOn (n - e.cycles) (es.take j) t) : ∀ j < k + 1, RunGoesOn n ((e :: es).take j) s
  | 0, _ => runGoesOn_nil hend
  | j + 1, hj => (h j (Nat.lt_of_succ_lt_succ hj)).cons ht

theorem runEnd_of_endAt (h : endAt left s = some r) (es : List Event) (done : Nat) :
    runEnd left es s done = some ⟨r, done, s⟩ := by
  rw [runEnd.eq_def, h]

/-- A run at whose boundary no end holds goes on with the next event. -/
theorem runEnd_cons (hend : endAt left s = none) (ht : event e s = .next t) (es : List Event) (done : Nat) :
    runEnd left (e :: es) s done = runEnd (left - e.cycles) es t (done + e.cycles) := by
  rw [runEnd, hend]
  simp only [ht]

/-- Where `runEnd` finds no end, none holds at any boundary. -/
theorem runGoesOn_of_runEnd_eq_none (h : runEnd left es s done = none) : ∀ j < es.length + 1, RunGoesOn left (es.take j) s := by
  induction es generalizing left s done with
  | nil =>
    cases hend : endAt left s with
    | some r => simp [runEnd_of_endAt hend] at h
    | none =>
      intro j _
      rw [List.take_nil]
      exact runGoesOn_nil hend
  | cons e es ih =>
    cases hend : endAt left s with
    | some r => simp [runEnd_of_endAt hend] at h
    | none =>
      obtain ⟨t, ht⟩ := event_next e s
      rw [runEnd_cons hend ht] at h
      exact runGoesOn_take_cons hend ht (ih h)

/-- The end that `runEnd` finds holds after the first k events, and no end holds at an earlier boundary. -/
theorem holds_of_runEnd_eq_some {x : RunEnd} (h : runEnd left es s done = some x) :
    ∃ k ≤ es.length, events (es.take k) s = .next x.state ∧ x.cycles = done + cycleCount (es.take k) ∧ x.Holds (done + left) ∧
      ∀ j < k, RunGoesOn left (es.take j) s := by
  induction es generalizing left s done with
  | nil =>
    cases hend : endAt left s with
    | some r =>
      cases (runEnd_of_endAt hend [] done).symm.trans h
      exact ⟨0, Nat.le_refl 0, rfl, rfl, holds_of_endAt hend done, fun j hj => absurd hj j.not_lt_zero⟩
    | none => simp [runEnd, hend] at h
  | cons e es ih =>
    cases hend : endAt left s with
    | some r =>
      cases (runEnd_of_endAt hend (e :: es) done).symm.trans h
      exact ⟨0, Nat.zero_le _, rfl, rfl, holds_of_endAt hend done, fun j hj => absurd hj j.not_lt_zero⟩
    | none =>
      obtain ⟨t, ht⟩ := event_next e s
      rw [runEnd_cons hend ht] at h
      obtain ⟨k, hk, hevents, hcycles, hholds, hbefore⟩ := ih h
      obtain ⟨-, -, hleft⟩ := endAt_eq_none_iff.mp hend
      have hone := e.cycles_le_one
      have hn : done + e.cycles + (left - e.cycles) = done + left := by omega
      refine ⟨k + 1, Nat.succ_le_succ hk, ?_, ?_, hn ▸ hholds, runGoesOn_take_cons hend ht hbefore⟩
      · rw [List.take_succ_cons, events, ht]
        exact hevents
      · rw [List.take_succ_cons, cycleCount_cons, hcycles, Nat.add_assoc]

/-- Settles O60: `runEnd` walks the boundaries in order and stops at the first where one of the four ends holds. -/
theorem runEndsAtTheFirstOfTheFour : Obligations.RunEndsAtTheFirstOfTheFour := by
  intro n es s
  split
  next x h => simpa only [Nat.zero_add] using holds_of_runEnd_eq_some h
  next h => exact fun j hj => runGoesOn_of_runEnd_eq_none h j (Nat.lt_succ_of_le hj)

end Sys2Proof.Machine
